-- ==== Sys2Proof/Word.lean ====
section
/-! DEFINITION. The words of the CMAC-AES core: byte, bus word and 128-bit block (spec 00_scope.md R10, R11). -/

namespace Sys2Proof

/-- 8 bits, bit 7 most significant (R10). -/
abbrev Byte := BitVec 8

/-- One 32-bit bus word (R9 BUS_W, R72). -/
abbrev Word := BitVec 32

/-- A 16-byte block `B`, held as the 128-bit integer `val(B)` of R10: byte 0 is the most significant byte.
`⊕` of R11 is `^^^`, `0^128` is `0`. DEDUCED (log entry 6): `val` and `blk` are inverse, so the integer is the block. -/
abbrev Block := BitVec 128

/-- The 32 bytes of key storage `KEYB[0..31]` as one 256-bit integer, byte 0 most significant (R38, R75). -/
abbrev KeyStore := BitVec 256

/-- A key as the cipher receives it: a byte sequence; its length tells the AES variant (R43, R52). -/
abbrev Key := List Byte

end Sys2Proof
end

