-- ==== Sys2Proof/Machine/Chainer.lean ====
section
/-! DEFINITION. The CBC message chainer (spec 42_cbc_chainer.md). -/

namespace Sys2Proof.Machine

/-- `Y = X ⊕ M`, the cipher input of one chaining iteration (R150). -/
def chainInput (x m : Block) : Block := x ^^^ m

end Sys2Proof.Machine
end

