-- ==== Sys2Proof/Machine/Combiner.lean ====
section
/-! DEFINITION. The CMAC tag combiner (spec 43_tag_combiner.md). -/

namespace Sys2Proof.Machine

/-- The subkey that adjusts the last block: K1 exactly when it is complete (R172). -/
def lastSubkey (complete : Bool) (k1 k2 : Block) : Block := if complete then k1 else k2

/-- `combineInput(X, Lb, lastComplete, K1, K2)` (R170). -/
def combineInput (x lb : Block) (complete : Bool) (k1 k2 : Block) : Block :=
  (lb ^^^ lastSubkey complete k1 k2) ^^^ x

end Sys2Proof.Machine
end

