-- ==== Sys2Proof/Machine/Bytes.lean ====
section
/-! DEFINITION. Byte and word views of a byte sequence held as one big-endian integer (spec 00_scope.md R10;
20_memory.md R74, R75). -/

namespace Sys2Proof.Machine

/-- Byte `j` of an `n`-bit big-endian value: byte 0 is the most significant (R10, R74). -/
def byteAt {n : Nat} (v : BitVec n) (j : Nat) : Byte := v.extractLsb' (n - 8 - 8 * j) 8

/-- All bytes of an `n`-bit value, byte 0 first. -/
def bytesOf {n : Nat} (v : BitVec n) : List Byte := (List.range (n / 8)).map (byteAt v)

/-- The `n`-bit value whose bytes are `bs`, byte 0 most significant (R10 `val`, for n / 8 bytes). -/
def ofBytes (n : Nat) (bs : List Byte) : BitVec n :=
  bs.foldl (fun acc b => (acc <<< 8) ||| b.setWidth n) 0

/-- `bs` cut to `len` bytes, or right-filled with zero bytes to `len` (R97 LDDATA). -/
def padRight (len : Nat) (bs : List Byte) : List Byte := (bs ++ List.replicate len 0).take len

/-- The block of a byte sequence, right-filled with zero bytes. -/
def blockOfBytes (bs : List Byte) : Block := ofBytes 128 (padRight 16 bs)

/-- The key store holding `bs` in its first bytes and 0 after it. -/
def keyStoreOfBytes (bs : List Byte) : KeyStore := ofBytes 256 (padRight 32 bs)

/-- Word `j` of a register group: word 0 holds the first four bytes (R75). -/
def wordAt {n : Nat} (v : BitVec n) (j : Nat) : Word := v.extractLsb' (n - 32 - 32 * j) 32

/-- A register group after a write of `w` to its word `j` (R75). -/
def putWord {n : Nat} (v : BitVec n) (j : Nat) (w : Word) : BitVec n :=
  (v &&& ~~~((BitVec.allOnes 32).setWidth n <<< (n - 32 - 32 * j))) ||| (w.setWidth n <<< (n - 32 - 32 * j))

/-- The low 32 bits of a 64-bit register pair (R35, R36, R37). -/
def lowWord (v : BitVec 64) : Word := v.extractLsb' 0 32

/-- The high 32 bits of a 64-bit register pair. -/
def highWord (v : BitVec 64) : Word := v.extractLsb' 32 32

/-- One flag as a one-bit value. -/
def bit (b : Bool) : BitVec 1 := if b then 1 else 0

end Sys2Proof.Machine
end

