-- ==== Sys2Proof/Config.lean ====
section
/-! DEFINITION. What an implementation fixes and the spec leaves open (spec 00_scope.md R8, R9). -/

namespace Sys2Proof

/-- The external block cipher `E(key, block)` (R9, R52, 92_eei_decisions.md D24: OPEN). It has no body: no proof can
see a value of it, so a claim holds for every pure function `E`. Log entry 7. -/
opaque Config.encryptBlock : Key → Block → Block

/-- Length in bytes of the register window (R20, R70). -/
def Config.windowBytes : Nat := 0x80

/-- CMAC_BASE of `State.reset`. DESIGN CHOICE (log entry 2): the spec leaves the base open; a machine's base is the
field `base` of its state and no statement rests on this number. -/
def Config.defaultBase : Nat := 0

/-- CIPHER_FAULTS of `State.reset`: "by default admitted" (R9). Log entry 3. -/
def Config.defaultCipherFaults : Bool := true

end Sys2Proof
end

