-- ==== Sys2Proof/Syntax.lean ====
section
/-! DEFINITION. The commands of the core, one constructor per row of spec/opcode_table.json (spec 30_encoding.md R92).
No command has an operand field (R91), so no constructor has an argument. -/

namespace Sys2Proof

/-- The five commands. In this hardware a command word written to CMD plays the part of an instruction (R15). -/
inductive Instr where
  | nop
  | init
  | push
  | double
  | clear
deriving DecidableEq, Repr

end Sys2Proof
end

