-- ==== Sys2Proof/Machine/State.lean ====
section
/-! DEFINITION. The state of the core and of its two agents, the reasons a step can stop, and reset
(spec 10_state.md; 00_scope.md R7; 20_memory.md R72). -/

namespace Sys2Proof.Machine

/-- The sequencer phase (R26). -/
inductive Phase where
  | idle
  | absorb
  | done
  | error
deriving DecidableEq, Repr

/-- Which cipher response the core waits for, `st.seq` (R43). `waitNone` is the spec's NONE. -/
inductive Seq where
  | waitNone
  | waitL
  | waitChain
  | waitTag
deriving DecidableEq, Repr

/-- STATUS.ERR_CODE (R31, R240). Codes 5 to 15 "are never produced", so they have no constructor. -/
inductive ErrCode where
  | noError
  | invalidKeyLength
  | cipherFault
  | illegalCommand
  | sequenceError
deriving DecidableEq, Repr

/-- A cipher request `(k, b)` (R43, R50). -/
structure CipherRequest where
  key : Key
  block : Block
deriving DecidableEq, Repr

/-- The access widths other than 32 bits (R72: "8, 16 or 64 bits"). -/
inductive OtherWidth where
  | w8
  | w16
  | w64
deriving DecidableEq, Repr

/-- One bus access of the host, at an absolute byte address (R12, R71, R86). The two 32-bit forms are MemRead(a, 4)
and MemWrite(a, 4, v). The other widths exist only to be answered with a bus error (R72); the data of such a write
reaches nothing and is not represented. -/
inductive BusAccess where
  | read (addr : Nat)
  | write (addr : Nat) (v : Word)
  | readOther (addr : Nat) (width : OtherWidth)
  | writeOther (addr : Nat) (width : OtherWidth)
deriving DecidableEq, Repr

/-- One response of the cipher agent (R51): Ok, or Err(c) with an 8-bit code. The block of an Ok response is
E(k, b) of the pending request, so it is no argument here. -/
inductive CipherAnswer where
  | ok
  | err (c : Byte)
deriving DecidableEq, Repr

/-- One thing that happens to the core: a step of the host agent, a step of the cipher agent (R7), or the reset input
(R280). -/
inductive Event where
  | host (a : BusAccess)
  | cipher (r : CipherAnswer)
  | reset
deriving DecidableEq, Repr

/-- What the last bus access answered the host with (R41, R71, R72, R73). -/
inductive BusResponse where
  /-- No access has been made yet. -/
  | noAccess
  /-- Normal response to a read. -/
  | readData (v : Word)
  /-- Normal response to a write. -/
  | writeDone
  /-- Bus error on a read; R72 and R73: the data is 0. A fault of the host agent, not of the core (R252). -/
  | readError (v : Word)
  /-- Bus error on a write. -/
  | writeError
  /-- The access was not addressed to this core: "the platform answers it" (R71). -/
  | platform
deriving DecidableEq, Repr

/-- The whole machine. Every field of R43 and every stored register of R20, in the spec's own names, then the
platform parameters and the two agents. -/
structure State where
  /-- CTRL.KEYLEN (R22). -/
  keyLen : BitVec 6
  /-- CTRL.IE (R22). -/
  ie : Bool
  /-- MSGLEN (R35). -/
  msgLen : BitVec 64
  /-- KEYB (R38). -/
  keyB : KeyStore
  /-- DATAB (R39). -/
  dataB : Block
  /-- `st.phase`, read as STATUS.PHASE (R26, R43). -/
  phase : Phase
  /-- STATUS.LAST_COMPLETE (R27). -/
  lastComplete : Bool
  /-- STATUS.OUT_VALID (R28). -/
  outValid : Bool
  /-- STATUS.CMD_DROP (R29). -/
  cmdDrop : Bool
  /-- STATUS.IP (R30). -/
  ip : Bool
  /-- STATUS.ERR_CODE (R31). -/
  errCode : ErrCode
  /-- ERR_INFO (R34). -/
  errInfo : Word
  /-- NBLK (R36). -/
  nblk : BitVec 64
  /-- BLKIDX (R37). -/
  blkIdx : BitVec 64
  /-- OUTB (R40). -/
  outB : Block
  /-- `st.seq` (R43). -/
  seq : Seq
  /-- `st.keyS` (R44). -/
  keyS : Key
  /-- `st.lenS` (R43). -/
  lenS : BitVec 64
  /-- `st.remS` (R43). -/
  remS : BitVec 4
  /-- `st.K1` (R46). -/
  k1 : Block
  /-- `st.K2` (R46). -/
  k2 : Block
  /-- `st.X` (R46). -/
  x : Block
  /-- `st.pending` (R43, R50). -/
  pending : Option CipherRequest
  /-- CMAC_BASE of this instance (R71, R262). A parameter: no step changes it. -/
  base : Nat
  /-- CIPHER_FAULTS (R9, R51). A parameter: no step changes it. -/
  cipherFaults : Bool
  /-- The model's own: the events still to happen, in order. The spec lets the agents interleave in any order (R7,
  R220), so every list is a run. DESIGN CHOICE, log entry 1. -/
  inputs : List Event
  /-- The model's own: what the host received from its last access. Log entry 4. -/
  resp : BusResponse
deriving DecidableEq, Repr

/-- Why the machine can stop with a fault. No instruction raises one. -/
inductive Fault where
  /-- Raised by an Ok step of the cipher agent when a request is pending but `seq` is NONE, for which R202 has no rule.
  R48 item 1 says no such state is reachable. Safe: the model stops where the spec gives nothing. -/
  | unawaitedResponse
deriving DecidableEq, Repr

/-- Why a step can be refused. -/
inductive Refusal where
  /-- An instruction without a meaning in `exec`. Raised by no arm today. Safe. -/
  | notModelled (mnemonic : String)
  /-- Raised by a cipher event while no request is pending: the cipher agent's step is not enabled (R51), and a stale
  response has "no step for it" (93_implementation_defined.md P3). Safe. -/
  | cipherStepNotEnabled
  /-- Raised by an Err event on a machine whose CIPHER_FAULTS does not admit failure (R51). Safe. -/
  | cipherFailureNotAdmitted
deriving DecidableEq, Repr

/-- The machine right after hardware reset (R55), with nothing scheduled. The four last fields are log entries 1 to 4. -/
def State.reset : State where
  keyLen := 0
  ie := false
  msgLen := 0
  keyB := 0
  dataB := 0
  phase := .idle
  lastComplete := false
  outValid := false
  cmdDrop := false
  ip := false
  errCode := .noError
  errInfo := 0
  nblk := 0
  blkIdx := 0
  outB := 0
  seq := .waitNone
  keyS := []
  lenS := 0
  remS := 0
  k1 := 0
  k2 := 0
  x := 0
  pending := none
  base := Config.defaultBase
  cipherFaults := Config.defaultCipherFaults
  inputs := []
  resp := .noAccess

end Sys2Proof.Machine
end

