-- ==== Sys2Proof/Machine/Flags.lean ====
section
/-! DEFINITION. The STATUS word and its fields, and the irq output (spec 10_state.md R24 to R32, R42; 60_exceptions.md
R240, R255). The hardware has no other flags (R49). -/

namespace Sys2Proof.Machine

/-- STATUS.BUSY: 1 exactly when `st.seq ≠ NONE` (R25). -/
def busy (s : State) : Bool := s.seq != .waitNone

/-- The encoding of STATUS.PHASE (R26). -/
def phaseCode : Phase → BitVec 2
  | .idle => 0
  | .absorb => 1
  | .done => 2
  | .error => 3

/-- The encoding of STATUS.ERR_CODE (R31, R240). -/
def errCodeBits : ErrCode → BitVec 4
  | .noError => 0
  | .invalidKeyLength => 1
  | .cipherFault => 2
  | .illegalCommand => 3
  | .sequenceError => 4

/-- What a read of STATUS returns (R24): bits 31:12 reserved, ERR_CODE, bit 7 reserved, IP, CMD_DROP, OUT_VALID,
LAST_COMPLETE, PHASE, BUSY. -/
def statusWord (s : State) : Word :=
  (0 : BitVec 20) ++ errCodeBits s.errCode ++ (0 : BitVec 1) ++ bit s.ip ++ bit s.cmdDrop ++ bit s.outValid ++
    bit s.lastComplete ++ phaseCode s.phase ++ bit (busy s)

/-- The effect of a write to STATUS: bit 5 clears CMD_DROP, bit 6 clears IP, nothing else (R32). -/
def writeStatus (v : Word) (s : State) : State :=
  { s with cmdDrop := s.cmdDrop && !v.getLsbD 5, ip := s.ip && !v.getLsbD 6 }

/-- The output `irq = CTRL.IE AND STATUS.IP` (R42, R255). -/
def irq (s : State) : Bool := s.ie && s.ip

end Sys2Proof.Machine
end

