-- ==== Sys2Proof/WellFormed.lean ====
section
/-! DEFINITION. Well-formedness of command words, commands and the base address (spec 30_encoding.md R90, R93;
20_memory.md R71). -/

namespace Sys2Proof

/-- R90: bits 31:4 of a command word must be 0. -/
def reservedBitsClear (w : Word) : Bool := w.extractLsb' 4 28 == 0

/-- R92: OP 0x0 to 0x4 are defined, 0x5 to 0xF are reserved. -/
def opcodeDefined (w : Word) : Bool := decide ((w.extractLsb' 0 4).toNat ≤ 4)

/-- R93: a command word is legal exactly when both checks hold. -/
def wordWellFormed (w : Word) : Bool := reservedBitsClear w && opcodeDefined w

/-- Every command is well-formed as syntax: it has no operand that could be out of range (R91, R95). -/
def Instr.wellFormed : Instr → Bool
  | .nop | .init | .push | .double | .clear => true

/-- R71: CMAC_BASE "must be a multiple of 0x80". -/
def baseWellFormed (base : Nat) : Bool := base % Config.windowBytes == 0

end Sys2Proof
end

