-- ==== Sys2Proof/Decode.lean ====
section
/-! DEFINITION. Decoding a command word, and the encoder (spec 30_encoding.md R90, R92, R93, R95). -/

namespace Sys2Proof

/-- Why a command word is no command (R93). -/
inductive IllegalWord where
  /-- RSVD ≠ 0. -/
  | reservedBits
  /-- RSVD = 0 and OP ∈ 0x5..0xF. -/
  | reservedOpcode
deriving DecidableEq, Repr

/-- What a command word decodes to: one of the five commands, or illegal for a named reason. R93: "every one of the
2^32 words is exactly one of the five commands or illegal". -/
inductive Decoded where
  | command (i : Instr)
  | illegal (why : IllegalWord)
deriving DecidableEq, Repr

/-- Field OP, bits 3:0 (R90). -/
def opField (w : Word) : BitVec 4 := w.extractLsb' 0 4

/-- Field RSVD, bits 31:4 (R90). -/
def rsvdField (w : Word) : BitVec 28 := w.extractLsb' 4 28

/-- The decoder: total on all 2^32 words (R92, R93). -/
def decode (w : Word) : Decoded :=
  if rsvdField w ≠ 0 then .illegal .reservedBits
  else match (opField w).toNat with
    | 0 => .command .nop
    | 1 => .command .init
    | 2 => .command .push
    | 3 => .command .double
    | 4 => .command .clear
    | _ => .illegal .reservedOpcode

/-- OP of a command (R92). -/
def opcode : Instr → BitVec 4
  | .nop => 0x0
  | .init => 0x1
  | .push => 0x2
  | .double => 0x3
  | .clear => 0x4

/-- The word of a command: RSVD = 0 and OP in bits 3:0 (R90, R92). -/
def encode (i : Instr) : Word := (0 : BitVec 28) ++ opcode i

/-- The command word whose bits are `w`, of which the table gives `nbits`; bits above are 0 (R95: one 32-bit word). -/
def tableWord (nbits w : Nat) : Word := BitVec.ofNat 32 (w % 2 ^ nbits)

/-- The command this decoder reads from a table row's word. -/
def decodeTableWord (nbits w : Nat) : Option Instr :=
  match decode (tableWord nbits w) with
  | .command i => some i
  | .illegal _ => none

end Sys2Proof
end

