-- ==== Sys2Proof/Machine/Operands.lean ====
section
/-! DEFINITION. The operands a command reads at acceptance, and the registers' names and offsets
(spec 30_encoding.md R91, R96; 10_state.md R20 to R23, R38). -/

namespace Sys2Proof.Machine

/-- The registers of the window (R20). Reserved offsets have no constructor. -/
inductive Reg where
  | id
  | ctrl
  | status
  | cmd
  | errInfo
  | msgLenLo
  | msgLenHi
  | nblkLo
  | nblkHi
  | blkIdxLo
  | blkIdxHi
  | key (j : Fin 8)
  | data (j : Fin 4)
  | out (j : Fin 4)
deriving DecidableEq, Repr

/-- `off(REG)`: the offset of a register in the window (R20, R96). -/
def regOffset : Reg → Nat
  | .id => 0x00
  | .ctrl => 0x04
  | .status => 0x08
  | .cmd => 0x0C
  | .errInfo => 0x10
  | .msgLenLo => 0x14
  | .msgLenHi => 0x18
  | .nblkLo => 0x1C
  | .nblkHi => 0x20
  | .blkIdxLo => 0x24
  | .blkIdxHi => 0x28
  | .key j => 0x40 + 4 * j.val
  | .data j => 0x60 + 4 * j.val
  | .out j => 0x70 + 4 * j.val

/-- The register at an offset of the window (R71); `none` at the reserved offsets 0x2C to 0x3C (R41). Used on aligned
offsets only. -/
def regAt (off : Nat) : Option Reg :=
  match off / 4 with
  | 0 => some .id
  | 1 => some .ctrl
  | 2 => some .status
  | 3 => some .cmd
  | 4 => some .errInfo
  | 5 => some .msgLenLo
  | 6 => some .msgLenHi
  | 7 => some .nblkLo
  | 8 => some .nblkHi
  | 9 => some .blkIdxLo
  | 10 => some .blkIdxHi
  | 16 => some (.key 0)
  | 17 => some (.key 1)
  | 18 => some (.key 2)
  | 19 => some (.key 3)
  | 20 => some (.key 4)
  | 21 => some (.key 5)
  | 22 => some (.key 6)
  | 23 => some (.key 7)
  | 24 => some (.data 0)
  | 25 => some (.data 1)
  | 26 => some (.data 2)
  | 27 => some (.data 3)
  | 28 => some (.out 0)
  | 29 => some (.out 1)
  | 30 => some (.out 2)
  | 31 => some (.out 3)
  | _ => none

/-- The ID register's value, the ASCII bytes "CMAC" (R21). -/
def idValue : Word := 0x434D4143

/-- The key lengths INIT accepts (R8, R22, R197). -/
def keyLenLegal (kl : BitVec 6) : Bool := kl == 16 || kl == 24 || kl == 32

/-- INIT's key operand: `KEYB[0 .. KEYLEN-1]`; bytes at KEYLEN and above are ignored (R38, R44). -/
def keyOperand (s : State) : Key := (bytesOf s.keyB).take s.keyLen.toNat

/-- The key on the cipher port: byte `j` at bits 255-8j : 248-8j, unused bytes 0 (R50). -/
def portKey (k : Key) : BitVec 256 := keyStoreOfBytes k

/-- The request half of the cipher port while `cph_req_valid = 1` (R50). -/
structure PortRequest where
  keylen : BitVec 6
  key : BitVec 256
  block : BitVec 128
deriving DecidableEq, Repr

/-- The request half of the cipher port; `none` is `cph_req_valid = 0` (R50). -/
def cipherPort (s : State) : Option PortRequest :=
  s.pending.map fun r => ⟨BitVec.ofNat 6 r.key.length, portKey r.key, r.block⟩

/-- What a read of CTRL returns: `zext_32(IE << 8 | KEYLEN)` (R23). -/
def ctrlWord (s : State) : Word := (0 : BitVec 23) ++ bit s.ie ++ (0 : BitVec 2) ++ s.keyLen

/-- The effect of a write to CTRL (R23). -/
def writeCtrl (v : Word) (s : State) : State :=
  { s with keyLen := v.extractLsb' 0 6, ie := v.getLsbD 8 }

/-- The effect of a write to MSGLEN_LO (R35). -/
def writeMsgLenLo (v : Word) (s : State) : State := { s with msgLen := highWord s.msgLen ++ v }

/-- The effect of a write to MSGLEN_HI (R35). -/
def writeMsgLenHi (v : Word) (s : State) : State := { s with msgLen := v ++ lowWord s.msgLen }

/-- The effect of a write to KEYj (R38, R75). -/
def writeKey (j : Fin 8) (v : Word) (s : State) : State := { s with keyB := putWord s.keyB j.val v }

/-- The effect of a write to DATAj (R39, R75). -/
def writeData (j : Fin 4) (v : Word) (s : State) : State := { s with dataB := putWord s.dataB j.val v }

end Sys2Proof.Machine
end

