-- ==== Sys2Proof/Machine/Ops.lean ====
section
/-! DEFINITION. The shared operations of the sequencer: zeroize, issue, drop, the entry to ERROR and the return from it,
and the acceptance checks of a command (spec 10_state.md R47, R50; 44_commands.md R190, R191, R193; 60_exceptions.md
R241, R246, R250). -/

namespace Sys2Proof.Machine

/-- Zeroize, exactly (R47). -/
def zeroize (s : State) : State := { s with k1 := 0, k2 := 0, x := 0, keyS := [], lenS := 0, remS := 0 }

/-- `issue(k, b)` together with the sequencer's new wait (R50, R197, R200, R203). -/
def issue (k : Key) (b : Block) (wait : Seq) (s : State) : State :=
  { s with pending := some ⟨k, b⟩, seq := wait }

/-- The result and progress registers cleared: OUTB, OUT_VALID, NBLK, BLKIDX, LAST_COMPLETE (R197, R214). -/
def clearResults (s : State) : State :=
  { s with outB := 0, outValid := false, nblk := 0, blkIdx := 0, lastComplete := false }

/-- A command ends without error: BUSY falls and IP is set (R194, R203 to R205). -/
def complete (s : State) : State := { s with seq := .waitNone, ip := true }

/-- A dropped command write sets CMD_DROP and has no other effect (R191). -/
def drop (s : State) : State := { s with cmdDrop := true }

/-- An error with what its ERR_INFO records (R240, R241). -/
inductive CoreError where
  | invalidKeyLength (kl : BitVec 6)
  | cipherFault (c : Byte)
  | illegalCommand (w : Word)
  | sequenceError (op : BitVec 4) (phase : Phase)
deriving DecidableEq, Repr

/-- The error's ERR_CODE (R240). -/
def errorCode : CoreError → ErrCode
  | .invalidKeyLength _ => .invalidKeyLength
  | .cipherFault _ => .cipherFault
  | .illegalCommand _ => .illegalCommand
  | .sequenceError _ _ => .sequenceError

/-- The error's ERR_INFO (R241): the accepted-set mask 0b111 in bits 18:16 and KEYLEN; the cipher's code; the whole
word; OP in bits 3:0 and PHASE in bits 9:8. -/
def errorInfo : CoreError → Word
  | .invalidKeyLength kl => (0 : BitVec 13) ++ (7 : BitVec 3) ++ (0 : BitVec 10) ++ kl
  | .cipherFault c => c.setWidth 32
  | .illegalCommand w => w
  | .sequenceError op ph => (0 : BitVec 22) ++ phaseCode ph ++ (0 : BitVec 4) ++ op

/-- TAKING AN ERROR: `raise <Error>(info)`, exactly (R246). NBLK, BLKIDX, LAST_COMPLETE and CMD_DROP stay as the record
of where it happened, and no host-written register changes. -/
def raise (e : CoreError) (s : State) : State :=
  { zeroize s with
    outB := 0
    outValid := false
    pending := none
    seq := .waitNone
    errCode := errorCode e
    errInfo := errorInfo e
    phase := .error
    ip := true }

/-- THE RETURN FROM ERROR, which is the execute step of CLEAR (R214, R250): everything the core writes is 0 or IDLE, the
host-written registers are kept. -/
def clearAll (s : State) : State :=
  { clearResults (zeroize s) with errCode := .noError, errInfo := 0, cmdDrop := false, ip := false, phase := .idle }

/-- `legal(op, phase)` (R193). -/
def legalIn (i : Instr) (p : Phase) : Bool :=
  match i, p with
  | .nop, _ => true
  | .init, .idle | .init, .absorb | .init, .done => true
  | .init, .error => false
  | .push, .absorb => true
  | .push, .idle | .push, .done | .push, .error => false
  | .double, .idle | .double, .absorb | .double, .done => true
  | .double, .error => false
  | .clear, _ => true

/-- The checks of R190 for a word that is a command other than NOP, then its execute step: the busy drop, the drop in
ERROR of all but CLEAR (R191), the phase check (R193, R244), `execute`. -/
def accept (i : Instr) (execute : State → State) (s : State) : State :=
  if busy s then drop s
  else if s.phase = .error ∧ i ≠ .clear then drop s
  else if legalIn i s.phase then execute s
  else raise (.sequenceError (opcode i) s.phase) s

/-- What R190 does with a word that is no command: dropped while BUSY or in ERROR, else ILLEGAL_COMMAND with the whole
word (R191, R192, R242). -/
def rejectWord (w : Word) (s : State) : State :=
  if busy s then drop s
  else if s.phase = .error then drop s
  else raise (.illegalCommand w) s

/-- Hardware reset (R280): every piece of the core's state takes the value of R55. The platform parameters, the
schedule and what the host last read are not the core's and stay. -/
def hardwareReset (s : State) : State :=
  { State.reset with base := s.base, cipherFaults := s.cipherFaults, inputs := s.inputs, resp := s.resp }

end Sys2Proof.Machine
end

