-- ==== Sys2Proof/Machine/Segmenter.lean ====
section
/-! DEFINITION. The message block segmenter and last-block classifier (spec 41_segmenter.md). -/

namespace Sys2Proof.Machine

/-- The result of `classify` (R130). -/
structure BlockClass where
  blockCount : BitVec 64
  lastComplete : Bool
  rem : BitVec 4
deriving DecidableEq, Repr

/-- `classify(n)` (R130), in the form that never overflows 64 bits (R131). -/
def classify (n : BitVec 64) : BlockClass :=
  if n = 0 then ⟨1, false, 0⟩
  else
    ⟨(n >>> 4) + (if n &&& 15 ≠ 0 then 1 else 0), n &&& 15 == 0, n.extractLsb' 0 4⟩

/-- `pad(D, r)`: the first `r` bytes of `D`, then 0x80, then zero bytes (R133). -/
def pad (d : Block) (r : BitVec 4) : Block :=
  ofBytes 128 ((bytesOf d).take r.toNat ++ 0x80 :: List.replicate (15 - r.toNat) 0)

/-- `lastBlock(D, lastComplete, r)` (R134). -/
def lastBlock (d : Block) (complete : Bool) (r : BitVec 4) : Block := if complete then d else pad d r

/-- Block `BLKIDX` is a non-last block, `i + 1 < NBLK` (R132). Compared as integers, so nothing wraps. -/
def moreBlocksFollow (blkIdx nblk : BitVec 64) : Bool := decide (blkIdx.toNat + 1 < nblk.toNat)

end Sys2Proof.Machine
end

