-- ==== Sys2Proof/Machine/MessageCommands.lean ====
section
/-! DEFINITION. The commands that call the cipher: INIT and PUSH (spec 44_commands.md R197, R200). Their completion is
in Machine/CipherResponse.lean. -/

namespace Sys2Proof.Machine

/-- INIT past its key check: key and length snapshot, classification, X <- 0, PHASE <- ABSORB, and the request for
L = E(key, 0^128) (R197). -/
def openMessage (k : Key) (len : BitVec 64) (s : State) : State :=
  let c := classify len
  issue k 0 .waitL
    { s with
      keyS := k
      lenS := len
      nblk := c.blockCount
      lastComplete := c.lastComplete
      remS := c.rem
      x := 0
      phase := .absorb }

/-- INIT's execute step (R197): clear the results, zeroize (which abandons an open message, R199), check KEYLEN before
any cipher call (R198). -/
def initBody (s : State) : State :=
  let cleared := zeroize (clearResults s)
  if keyLenLegal s.keyLen then openMessage (keyOperand s) s.msgLen cleared
  else raise (.invalidKeyLength s.keyLen) cleared

/-- INIT (R190, R197). -/
def execInit (s : State) : Host.Outcome State Fault Refusal := .next (accept .init initBody s)

/-- PUSH's execute step (R200): a non-last block goes to the chainer, the last one through `lastBlock` and the
combiner. -/
def pushBody (s : State) : State :=
  if moreBlocksFollow s.blkIdx s.nblk then
    issue s.keyS (chainInput s.x s.dataB) .waitChain s
  else
    let lb := lastBlock s.dataB s.lastComplete s.remS
    issue s.keyS (combineInput s.x lb s.lastComplete s.k1 s.k2) .waitTag s

/-- PUSH (R190, R200). -/
def execPush (s : State) : Host.Outcome State Fault Refusal := .next (accept .push pushBody s)

end Sys2Proof.Machine
end

