-- ==== Sys2Proof/Machine/Subkey.lean ====
section
/-! DEFINITION. The subkey generator: doubling in GF(2^128) and what is built on it (spec 40_subkey_generator.md). -/

namespace Sys2Proof.Machine

/-- The constant Rb (R112). -/
def rb : Block := 0x87

/-- `dbl(B)`, defined on values (R110). -/
def dbl (b : Block) : Block := if b.getLsbD 127 then (b <<< 1) ^^^ rb else b <<< 1

/-- `R[j]` of R111 before the constant is applied: byte `j` shifted left, with bit 7 of byte `j + 1` carried in. -/
def shiftedByte (b : Block) (j : Nat) : Byte :=
  if j = 15 then byteAt b 15 <<< 1 else (byteAt b j <<< 1) ||| (byteAt b (j + 1) >>> 7)

/-- `dbl(B)` in byte form with explicit carries (R111). -/
def dblBytes (b : Block) : List Byte :=
  (List.range 16).map fun j =>
    if j = 15 ∧ byteAt b 0 &&& 0x80 ≠ 0 then shiftedByte b j ^^^ 0x87 else shiftedByte b j

/-- `half(D)`, the inverse of `dbl` (R115). The hardware has no such command; it is here for statements. -/
def half (d : Block) : Block :=
  if d.getLsbD 0 then ((d ^^^ rb) >>> 1) ||| (1 <<< 127) else d >>> 1

/-- The subkeys of `l = E(k, 0^128)` (R113). -/
def subkeys (l : Block) : Block × Block := (dbl l, dbl (dbl l))

end Sys2Proof.Machine
end

