-- ==== Sys2Proof/Machine/UtilityCommands.lean ====
section
/-! DEFINITION. The commands that call no cipher: NOP, DOUBLE, CLEAR (spec 44_commands.md R195, R210, R214). -/

namespace Sys2Proof.Machine

/-- NOP: no effect in every phase, also while BUSY and in ERROR; never dropped (R195). -/
def execNop (s : State) : Host.Outcome State Fault Refusal := .next s

/-- DOUBLE's execute step: OUTB <- dbl(DATAB), OUT_VALID and IP set (R210). -/
def doubleBody (s : State) : State := { s with outB := dbl s.dataB, outValid := true, ip := true }

/-- DOUBLE (R190, R210). -/
def execDouble (s : State) : Host.Outcome State Fault Refusal := .next (accept .double doubleBody s)

/-- CLEAR: discard all invocation state and leave ERROR (R190, R214). -/
def execClear (s : State) : Host.Outcome State Fault Refusal := .next (accept .clear clearAll s)

end Sys2Proof.Machine
end

