-- ==== Sys2Proof/Machine/Dispatch.lean ====
section
/-! DEFINITION. The meaning of every command (spec 44_commands.md). -/

namespace Sys2Proof.Machine

def exec (i : Instr) (s : State) : Host.Outcome State Fault Refusal :=
  match i with
  | .nop => Sys2Proof.Machine.execNop s
  | .init => Sys2Proof.Machine.execInit s
  | .push => Sys2Proof.Machine.execPush s
  | .double => Sys2Proof.Machine.execDouble s
  | .clear => Sys2Proof.Machine.execClear s

end Sys2Proof.Machine
end

