-- ==== Sys2Proof/Machine/Bus.lean ====
section
/-! DEFINITION. The host agent's step: address decoding, register reads and writes, and the command register
(spec 20_memory.md R70 to R73, R77; 10_state.md R20 to R41; 44_commands.md R190). -/

namespace Sys2Proof.Machine

/-- The address lies in `[CMAC_BASE, CMAC_BASE + 0x80)` (R70). -/
def inWindow (base addr : Nat) : Bool := decide (base ≤ addr ∧ addr < base + Config.windowBytes)

/-- `off = a - CMAC_BASE` (R71). -/
def offsetOf (base addr : Nat) : Nat := addr - base

/-- `off[1:0] = 0` (R73). -/
def aligned (off : Nat) : Bool := off % 4 == 0

/-- What a read of a register returns (R20 to R41). CMD and KEYj read 0 (R33, R38). -/
def readReg (r : Reg) (s : State) : Word :=
  match r with
  | .id => idValue
  | .ctrl => ctrlWord s
  | .status => statusWord s
  | .cmd => 0
  | .errInfo => s.errInfo
  | .msgLenLo => lowWord s.msgLen
  | .msgLenHi => highWord s.msgLen
  | .nblkLo => lowWord s.nblk
  | .nblkHi => highWord s.nblk
  | .blkIdxLo => lowWord s.blkIdx
  | .blkIdxHi => highWord s.blkIdx
  | .key _ => 0
  | .data j => wordAt s.dataB j.val
  | .out j => wordAt s.outB j.val

/-- What a read at an aligned offset of the window returns; reserved offsets read 0 (R41). -/
def readWindow (off : Nat) (s : State) : Word :=
  match regAt off with
  | some r => readReg r s
  | none => 0

/-- The effect of a command word written to CMD: the decoded command runs, an illegal word is rejected as R190 says. -/
def acceptWord (w : Word) (s : State) : Host.Outcome State Fault Refusal :=
  match decode w with
  | .command i => exec i s
  | .illegal _ => .next (rejectWord w s)

/-- The effect of a write to a register (R77). Writes to read-only registers are ignored (R41). -/
def writeReg (r : Reg) (v : Word) (s : State) : Host.Outcome State Fault Refusal :=
  match r with
  | .cmd => acceptWord v s
  | .ctrl => .next (writeCtrl v s)
  | .status => .next (writeStatus v s)
  | .msgLenLo => .next (writeMsgLenLo v s)
  | .msgLenHi => .next (writeMsgLenHi v s)
  | .key j => .next (writeKey j v s)
  | .data j => .next (writeData j v s)
  | .id | .errInfo | .nblkLo | .nblkHi | .blkIdxLo | .blkIdxHi | .out _ => .next s

/-- The effect of a write at an aligned offset of the window; reserved offsets ignore it (R41). -/
def writeWindow (off : Nat) (v : Word) (s : State) : Host.Outcome State Fault Refusal :=
  match regAt off with
  | some r => writeReg r v s
  | none => .next s

/-- The host agent receives a bus response. -/
def respondBus (r : BusResponse) (s : State) : State := { s with resp := r }

/-- One bus access (R70 to R73): outside the window the platform answers; a misaligned or non-32-bit access gets a bus
error and changes no state of the core, a read then returning 0; else the register is read or written. -/
def busStep (a : BusAccess) (s : State) : Host.Outcome State Fault Refusal :=
  match a with
  | .read addr =>
    if !inWindow s.base addr then .next (respondBus .platform s)
    else if !aligned (offsetOf s.base addr) then .next (respondBus (.readError 0) s)
    else .next (respondBus (.readData (readWindow (offsetOf s.base addr) s)) s)
  | .write addr v =>
    if !inWindow s.base addr then .next (respondBus .platform s)
    else if !aligned (offsetOf s.base addr) then .next (respondBus .writeError s)
    else writeWindow (offsetOf s.base addr) v (respondBus .writeDone s)
  | .readOther addr _ =>
    if !inWindow s.base addr then .next (respondBus .platform s) else .next (respondBus (.readError 0) s)
  | .writeOther addr _ =>
    if !inWindow s.base addr then .next (respondBus .platform s) else .next (respondBus .writeError s)

end Sys2Proof.Machine
end

