-- ==== Sys2Proof/Machine/CipherResponse.lean ====
section
/-! DEFINITION. The cipher agent's step and the core's reaction in the same step (spec 10_state.md R51; 44_commands.md
R202 to R205; 60_exceptions.md R243). -/

namespace Sys2Proof.Machine

/-- WAIT_L response with `L = l`: derive K1 and K2; for the empty message issue the tag request at once, else INIT
completes (R203). -/
def finishSubkeys (l : Block) (s : State) : State :=
  let s1 := { s with k1 := (subkeys l).1, k2 := (subkeys l).2 }
  if s.lenS = 0 then
    issue s1.keyS (combineInput s1.x (pad 0 0) false s1.k1 s1.k2) .waitTag s1
  else complete s1

/-- WAIT_CHAIN response: X <- C, BLKIDX + 1, PUSH completes (R204). -/
def finishChain (c : Block) (s : State) : State := complete { s with x := c, blkIdx := s.blkIdx + 1 }

/-- WAIT_TAG response: the tag is written, the message closes (R205). -/
def finishTag (c : Block) (s : State) : State :=
  complete { zeroize s with outB := c, outValid := true, blkIdx := s.blkIdx + 1, phase := .done }

/-- An Ok response with block `c` (R202): the request is taken away first, then the rule of the current `st.seq` runs. -/
def respondOk (c : Block) (s : State) : Host.Outcome State Fault Refusal :=
  let s1 := { s with pending := none }
  match s.seq with
  | .waitL => .next (finishSubkeys c s1)
  | .waitChain => .next (finishChain c s1)
  | .waitTag => .next (finishTag c s1)
  | .waitNone => .fault .unawaitedResponse

/-- An Err(c) response: CIPHER_FAULT, whatever `st.seq` is (R243). -/
def respondErr (c : Byte) (s : State) : Host.Outcome State Fault Refusal :=
  .next (raise (.cipherFault c) { s with pending := none })

/-- The cipher agent's step (R51): enabled only while a request is pending; Ok carries E(k, b) of that request; Err only
when CIPHER_FAULTS admits it. -/
def cipherStep (r : CipherAnswer) (s : State) : Host.Outcome State Fault Refusal :=
  match s.pending with
  | none => .refused .cipherStepNotEnabled
  | some req =>
    match r with
    | .ok => respondOk (Config.encryptBlock req.key req.block) s
    | .err c => if s.cipherFaults then respondErr c s else .refused .cipherFailureNotAdmitted

end Sys2Proof.Machine
end

