-- ==== Sys2Proof/Machine/Agents.lean ====
section
/-! DEFINITION. One event of the schedule, and how a command word is placed to be run next (spec 00_scope.md R7;
20_memory.md R79; 70_reset_and_hazards.md R280). -/

namespace Sys2Proof.Machine

/-- One event, on a state from whose schedule it has been taken. -/
def runEvent (e : Event) (s : State) : Host.Outcome State Fault Refusal :=
  match e with
  | .host a => busStep a s
  | .cipher r => cipherStep r s
  | .reset => .next (hardwareReset s)

/-- The next event of the schedule happens. With nothing scheduled neither agent moves and nothing changes: the core
"does nothing until a host write" and loses no state (R7, R264; log entry 8). -/
def agentStep (s : State) : Host.Outcome State Fault Refusal :=
  match s.inputs with
  | [] => .next s
  | e :: rest => runEvent e { s with inputs := rest }

/-- The host access that writes `w` to CMD, at CMAC_BASE + 0x0C (R33). -/
def cmdWrite (base : Nat) (w : Word) : Event := .host (.write (base + regOffset .cmd) w)

/-- The schedule with the write of a command word put before everything else. -/
def placeCommand (w : Word) (s : State) : State := { s with inputs := cmdWrite s.base w :: s.inputs }

end Sys2Proof.Machine
end

