-- ==== Sys2Proof/Machine/Step.lean ====
section
/-! DEFINITION. One step of the machine (spec 00_scope.md R7). -/

namespace Sys2Proof.Machine

/-- One step: the next event of the schedule happens. -/
def step (s : State) : Host.Outcome State Fault Refusal := agentStep s

/-- `s` with the command word `w` placed so that the very next step runs it: the host's write of it to CMD comes first
in the schedule. Log entry 9. -/
def State.withFetchWord (s : State) (nbits w : Nat) : State := placeCommand (tableWord nbits w) s

end Sys2Proof.Machine
end

