-- ==== Sys2Proof/Laws/PerInstr.lean ====
section
/-! SUPPORT. The statement made per command: its word is well-formed and decodes to it (spec 30_encoding.md R92, R93). -/

namespace Sys2Proof.Laws.Encoding

/-- The command's word passes the checks of R93, and the decoder reads the command back from it. -/
def Statement (i : Instr) : Prop :=
  i.wellFormed = true ∧ wordWellFormed (encode i) = true ∧ decode (encode i) = .command i

theorem nop : Statement .nop := by unfold Statement; decide
theorem init : Statement .init := by unfold Statement; decide
theorem push : Statement .push := by unfold Statement; decide
theorem double : Statement .double := by unfold Statement; decide
theorem clear : Statement .clear := by unfold Statement; decide

end Sys2Proof.Laws.Encoding
end

