-- ==== Sys2Proof/Machine/Assembler.lean ====
section
/-! DEFINITION. Host programs as lists of bus accesses: the assembler forms, the pseudo-instructions, and the schedule of
one message (spec 30_encoding.md R96 to R98; 44_commands.md R218). -/

namespace Sys2Proof.Machine

/-- `WR <REG>, <imm32>` (R96). -/
def asmWr (base : Nat) (r : Reg) (v : Word) : Event := .host (.write (base + regOffset r) v)

/-- `RD <REG>` (R96). -/
def asmRd (base : Nat) (r : Reg) : Event := .host (.read (base + regOffset r))

/-- `CMD <MNEMONIC>` (R96). -/
def asmCmd (base : Nat) (i : Instr) : Event := asmWr base .cmd (encode i)

/-- The key words of LDKEY: `KEYj` for j = 0 .. ceil(n/4)-1, missing bytes of the last word 0 (R97). -/
def asmKeyWords (base : Nat) (k : Key) : List Event :=
  ((List.finRange 8).filter fun j => decide (j.val < (k.length + 3) / 4)).map fun j =>
    asmWr base (.key j) (wordAt (keyStoreOfBytes k) j.val)

/-- `LDKEY` with IE = 0 and `LDKEYI` with IE = 1: the key words, then CTRL with the key's length (R97). A key of more
than 32 bytes has no key register to go to, so it has no expansion. -/
def asmLdkey (ie : Bool) (base : Nat) (k : Key) : Option (List Event) :=
  if k.length ≤ 32 then
    some (asmKeyWords base k ++ [asmWr base .ctrl ((if ie then 0x100 else 0) ||| BitVec.ofNat 32 k.length)])
  else none

/-- `LDLEN <n>` (R97). -/
def asmLdlen (base : Nat) (n : BitVec 64) : List Event :=
  [asmWr base .msgLenLo (lowWord n), asmWr base .msgLenHi (highWord n)]

/-- `LDDATA` of a whole block (R97); `blockOfBytes` right-fills a shorter string. -/
def asmLddata (base : Nat) (b : Block) : List Event :=
  [asmWr base (.data 0) (wordAt b 0), asmWr base (.data 1) (wordAt b 1), asmWr base (.data 2) (wordAt b 2),
    asmWr base (.data 3) (wordAt b 3)]

/-- `WAIT` that reads STATUS `n` times (R97). The loop is the host's: how often it turns depends on the cipher. -/
def asmWait (base n : Nat) : List Event := List.replicate n (asmRd base .status)

/-- `RDOUT` (R97). -/
def asmRdout (base : Nat) : List Event := (List.finRange 4).map fun j => asmRd base (.out j)

/-- `ACK` (R97). -/
def asmAck (base : Nat) : List Event := [asmWr base .status 0x60]

/-- A WAIT during which one Ok answer arrives: `before` STATUS reads precede it and `after` follow it (R79, R98). -/
def awaitAnswer (base before after : Nat) : List Event :=
  asmWait base before ++ .cipher .ok :: asmWait base after

/-- One block delivered (R98): LDDATA, PUSH, WAIT. The numbers are how often STATUS is read before and after the
answer. -/
def pushSchedule (base : Nat) (p : Block × Nat × Nat) : List Event :=
  asmLddata base p.1 ++ asmCmd base .push :: awaitAnswer base p.2.1 p.2.2

/-- The schedule of one message of `n` bytes once key and length are written (R218): INIT and its WAIT, in which the
empty message takes two answers (R203), then one PUSH for each block. -/
def messageSchedule (base : Nat) (n : BitVec 64) (before between after : Nat) (ps : List (Block × Nat × Nat)) :
    List Event :=
  asmCmd base .init :: awaitAnswer base before between ++
    (if n = 0 then .cipher .ok :: asmWait base after else []) ++ ps.flatMap (pushSchedule base)

/-- The message R218 says these blocks carry: their bytes in order, cut to `n`. -/
def pushedMessage (n : BitVec 64) (ps : List (Block × Nat × Nat)) : List Byte :=
  (ps.flatMap fun p => bytesOf p.1).take n.toNat

end Sys2Proof.Machine
end

