-- ==== Sys2Proof/Machine/Reference.lean ====
section
/-! DEFINITION. The document's algorithm as functions of a whole message, which the commands are held against
(spec 43_tag_combiner.md R174; 41_segmenter.md R135, R136; 42_cbc_chainer.md R152). The cipher is an argument. -/

namespace Sys2Proof.Machine

/-- What `segment(message)` returns (41_segmenter.md, head). -/
structure Segments where
  blockCount : Nat
  lastComplete : Bool
  lastBlock : Block
deriving DecidableEq, Repr

/-- `segment(message)` in the document's words (R130, R133, R134): ceil(len / 16) blocks; the empty message is one
incomplete block; an incomplete last block gets one 0x80 byte and zero bytes. -/
def segmentMessage (m : List Byte) : Segments :=
  let n := m.length
  if n = 0 then ⟨1, false, blockOfBytes [0x80]⟩
  else if n % 16 = 0 then ⟨n / 16, true, blockOfBytes (m.drop (n - 16))⟩
  else ⟨n / 16 + 1, false, blockOfBytes (m.drop (16 * (n / 16)) ++ [0x80])⟩

/-- `M_i = m[16i : 16i+16]` (R135). -/
def messageBlock (m : List Byte) (i : Nat) : Block := blockOfBytes ((m.drop (16 * i)).take 16)

/-- `chain(key, blocks)`: CBC-MAC over the blocks from the zero block (R152). -/
def chain (cipher : Key → Block → Block) (k : Key) (blocks : List Block) : Block :=
  blocks.foldl (fun x b => cipher k (chainInput x b)) 0

/-- `computeCmac(k, m)` (R174). -/
def computeCmac (cipher : Key → Block → Block) (k : Key) (m : List Byte) : Block :=
  let ks := subkeys (cipher k 0)
  let sg := segmentMessage m
  let x := chain cipher k ((List.range (sg.blockCount - 1)).map (messageBlock m))
  cipher k (combineInput x sg.lastBlock sg.lastComplete ks.1 ks.2)

end Sys2Proof.Machine
end

