-- ==== Sys2Proof/Safety.lean ====
section
/-! DEFINITION. What claims about the core are stated in: the invariants of R48, the invariant every step keeps, the weak
fairness of the cipher agent (R291), the end of a run (R219), and which fields a host or a reader can see
(spec 10_state.md; 44_commands.md; 60_exceptions.md; 70_reset_and_hazards.md). -/

namespace Sys2Proof.Machine

/-- The seven invariants of R48, in its order and words. -/
structure SpecInvariants (s : State) : Prop where
  seqPending : s.seq = .waitNone ↔ s.pending = none
  quietPhases : s.phase = .idle ∨ s.phase = .done ∨ s.phase = .error → s.seq = .waitNone
  absorbIndex : s.phase = .absorb → (s.seq = .waitNone ∨ s.seq = .waitChain ∨ s.seq = .waitTag) →
    s.blkIdx.toNat < s.nblk.toNat
  doneResult : s.phase = .done → s.blkIdx = s.nblk ∧ 1 ≤ s.nblk.toNat ∧ s.outValid = true ∧ s.k1 = 0 ∧ s.k2 = 0 ∧ s.x = 0
  closedSecrets : s.phase = .idle ∨ s.phase = .error → s.k1 = 0 ∧ s.k2 = 0 ∧ s.x = 0 ∧ s.keyS = []
  errorCode : s.phase = .error ↔ s.errCode ≠ .noError
  absorbKey : s.phase = .absorb → s.keyS.length = 16 ∨ s.keyS.length = 24 ∨ s.keyS.length = 32

/-- What every step keeps: R48, and what makes it inductive, each taken from a rule. -/
structure Inv (s : State) : Prop extends SpecInvariants s where
  /-- R71. -/
  baseAligned : s.base % Config.windowBytes = 0
  /-- R44: "Every cipher request of a message carries `st.keyS`". -/
  requestKey : ∀ r, s.pending = some r → r.key = s.keyS
  /-- R113: the WAIT_L request is for the zero block, before which nothing is derived (R197). -/
  waitLState : s.seq = .waitL → s.pending = some ⟨s.keyS, 0⟩ ∧ s.blkIdx = 0 ∧ s.k1 = 0 ∧ s.k2 = 0 ∧ s.x = 0
  /-- R200: a chain step is in flight only for a non-last block. -/
  waitChainIndex : s.seq = .waitChain → s.blkIdx.toNat + 1 < s.nblk.toNat
  /-- R200, R203: a tag is in flight only for the last block. -/
  waitTagIndex : s.seq = .waitTag → s.blkIdx.toNat + 1 = s.nblk.toNat
  /-- R27, R36, R43: the segmenter's outputs are those of `classify(st.lenS)`. -/
  absorbClass : s.phase = .absorb → s.nblk = (classify s.lenS).blockCount ∧
    s.lastComplete = (classify s.lenS).lastComplete ∧ s.remS = (classify s.lenS).rem
  /-- R203: an empty message never waits for a PUSH. -/
  absorbNonempty : s.phase = .absorb → s.seq = .waitNone ∨ s.seq = .waitChain → s.lenS ≠ 0
  /-- R45: "BLKIDX ≤ NBLK ≤ 2^60". -/
  indexLe : s.blkIdx.toNat ≤ s.nblk.toNat
  countLe : s.nblk.toNat ≤ 2 ^ 60
  /-- R47: outside ABSORB no snapshot is held. -/
  closedSnapshots : s.phase ≠ .absorb → s.keyS = [] ∧ s.lenS = 0 ∧ s.remS = 0
  /-- R34: ERR_INFO "is 0 whenever ERR_CODE is 0". -/
  noErrorInfo : s.errCode = .noError → s.errInfo = 0
  /-- R40: "While OUT_VALID = 0, OUTB is 16 zero bytes". -/
  noOutput : s.outValid = false → s.outB = 0

/-- Hardware reset with a base, a cipher and a schedule chosen by the platform (R9, R55, R71). -/
def bootState (base : Nat) (cipherFaults : Bool) (inputs : List Event) : State :=
  { State.reset with base := base, cipherFaults := cipherFaults, inputs := inputs }

/-- A state some run from hardware reset reaches, for some legal base, cipher and schedule (R7, R220). -/
def Reachable (s : State) : Prop :=
  ∃ base cf inputs n, base % Config.windowBytes = 0 ∧ core.run n (bootState base cf inputs) = .next s

/-- The cipher agent's step is enabled (R51). -/
def cipherEnabled (s : State) : Prop := s.pending ≠ none

/-- The next step is the cipher agent's, and it delivers a response. A refused answer is no step of the agent. -/
def cipherSteps (s : State) : Prop := ∃ r rest t, s.inputs = .cipher r :: rest ∧ step s = .next t

/-- R291, the weak fairness the spec has the model assume: "a request pending forever is eventually answered". From
every state of the run there comes a state in which the cipher agent's step is not enabled or is taken. A schedule that
ends with a request pending is not fair, since nothing happens after it (R264). The assumption is a premise, named by
the claims that need it. Log entry 14. -/
def WeaklyFair (s : State) : Prop :=
  ∀ n t, core.run n s = .next t → ∃ m u, core.run m t = .next u ∧ (¬ cipherEnabled u ∨ cipherSteps u)

/-- An event of the host agent. -/
def isHostEvent : Event → Bool
  | .host _ => true
  | .cipher _ | .reset => false

/-- R219: the run of a host program has ended. -/
def runEnded (s : State) : Bool := !(s.inputs.any isHostEvent) && s.pending == none

/-- R219: "final and good". -/
def finalGood (s : State) : Bool := runEnded s && s.phase != .error && !s.cmdDrop

/-- The table of R20, written out: the offset of every register of the window. -/
def windowTable : List (Nat × Reg) :=
  [(0x00, .id), (0x04, .ctrl), (0x08, .status), (0x0C, .cmd), (0x10, .errInfo), (0x14, .msgLenLo), (0x18, .msgLenHi),
    (0x1C, .nblkLo), (0x20, .nblkHi), (0x24, .blkIdxLo), (0x28, .blkIdxHi), (0x40, .key 0), (0x44, .key 1),
    (0x48, .key 2), (0x4C, .key 3), (0x50, .key 4), (0x54, .key 5), (0x58, .key 6), (0x5C, .key 7), (0x60, .data 0),
    (0x64, .data 1), (0x68, .data 2), (0x6C, .data 3), (0x70, .out 0), (0x74, .out 1), (0x78, .out 2), (0x7C, .out 3)]

/-- The fields the host can read through the window (R20); KEYB, `st.K1`, `st.K2`, `st.X` and the snapshots are not
among them (R38, R154, R260). -/
structure HostView where
  keyLen : BitVec 6
  ie : Bool
  msgLen : BitVec 64
  dataB : Block
  busy : Bool
  phase : Phase
  lastComplete : Bool
  outValid : Bool
  cmdDrop : Bool
  ip : Bool
  errCode : ErrCode
  errInfo : Word
  nblk : BitVec 64
  blkIdx : BitVec 64
  outB : Block
deriving DecidableEq, Repr

/-- The host's view of a state. -/
def hostView (s : State) : HostView :=
  ⟨s.keyLen, s.ie, s.msgLen, s.dataB, busy s, s.phase, s.lastComplete, s.outValid, s.cmdDrop, s.ip, s.errCode,
    s.errInfo, s.nblk, s.blkIdx, s.outB⟩

/-- The state with the registers the host writes replaced (R78, R202). -/
def withHostRegisters (kl : BitVec 6) (ie : Bool) (ml : BitVec 64) (kb : KeyStore) (db : Block) (s : State) : State :=
  { s with keyLen := kl, ie := ie, msgLen := ml, keyB := kb, dataB := db }

end Sys2Proof.Machine
end

