-- ==== Sys2Proof/Certificates/Slice0/Obligations.lean ====
section
/-! DEFINITION. The statements made of the CMAC-AES core, each from the rules its docstring names. The frame of a command
is stated by an equation between whole states: what the update does not name is unchanged. There is no memory, so no
statement speaks of memory bytes (spec 20_memory.md R70; log entry 5). -/

open Sys2Proof Sys2Proof.Machine

/-! ### Decoding and acceptance -/

/-- Words written out from the opcode map, bit by bit: OP in bits 3:0, RSVD in bits 31:4 (R90, R92, R93). -/
def Obligations.CommandWordsDecode : Prop :=
  decode 0b00000000000000000000000000000000 = .command .nop ∧
  decode 0b00000000000000000000000000000001 = .command .init ∧
  decode 0b00000000000000000000000000000010 = .command .push ∧
  decode 0b00000000000000000000000000000011 = .command .double ∧
  decode 0b00000000000000000000000000000100 = .command .clear ∧
  decode 0b00000000000000000000000000000101 = .illegal .reservedOpcode ∧
  decode 0b00000000000000000000000000001111 = .illegal .reservedOpcode ∧
  decode 0b00000000000000000000000000010000 = .illegal .reservedBits ∧
  decode 0b10000000000000000000000000000001 = .illegal .reservedBits ∧
  decode 0b11111111111111111111111111111111 = .illegal .reservedBits

/-- A word is a command exactly when the whole word is that command's word (R92). -/
def Obligations.DecodeSelectsWholeWords : Prop :=
  (∀ i, Laws.Encoding.Statement i) ∧ ∀ (w : Word) (i : Instr), decode w = .command i ↔ w = encode i

/-- R93, R192, R242: the illegal words, that nothing is both or neither, and what an illegal word does: ILLEGAL_COMMAND
with the whole word in ERR_INFO, unless it is dropped while BUSY or in ERROR. -/
def Obligations.IllegalWordsRaiseOrDrop : Prop :=
  ∀ w : Word,
    ((∃ why, decode w = .illegal why) ↔ 5 ≤ (w.extractLsb' 0 4).toNat ∨ w.extractLsb' 4 28 ≠ 0) ∧
    ((∃ why, decode w = .illegal why) ↔ w ≠ 0 ∧ w ≠ 1 ∧ w ≠ 2 ∧ w ≠ 3 ∧ w ≠ 4) ∧
    ∀ (s : State) (why : IllegalWord), decode w = .illegal why →
      acceptWord w s =
        if s.seq ≠ .waitNone ∨ s.phase = .error then .next { s with cmdDrop := true }
        else .next { s with
          k1 := 0, k2 := 0, x := 0, keyS := [], lenS := 0, remS := 0, outB := 0, outValid := false, pending := none,
          seq := .waitNone, errCode := .illegalCommand, errInfo := w, phase := .error, ip := true }

/-- R190: the acceptance procedure, its checks in the rule's order. -/
def Obligations.AcceptanceRunsChecksInOrder : Prop :=
  ∀ (w : Word) (s : State), acceptWord w s =
    if w = 0x00000000 then .next s
    else if s.seq ≠ .waitNone then .next { s with cmdDrop := true }
    else if s.phase = .error ∧ w ≠ 0x00000004 then .next { s with cmdDrop := true }
    else if w.extractLsb' 4 28 ≠ 0 ∨ w.extractLsb' 0 4 ∉ [0x1, 0x2, 0x3, 0x4] then
      .next (raise (.illegalCommand w) s)
    else if legalIn .push s.phase = false ∧ w = 0x2 then .next (raise (.sequenceError 0x2 s.phase) s)
    else if w = 0x1 then .next (initBody s)
    else if w = 0x2 then .next (pushBody s)
    else if w = 0x3 then .next (doubleBody s)
    else .next (clearAll s)

/-- A step whose next event is a write to CMD, at CMAC_BASE + 0x0C, of a word that decodes to a command runs that
command on the state without that event and with a normal write response; an illegal word is rejected. `withFetchWord`
places such an event, the model's way to place a command (log entries 1 and 9; R15, R33, R190). -/
def Obligations.CommandWriteRunsDecodedCommand : Prop :=
  (∀ (s : State) (w : Word) (rest : List Event), s.inputs = .host (.write (s.base + 0x0C) w) :: rest →
    step s = match decode w with
      | .command i => exec i { s with inputs := rest, resp := .writeDone }
      | .illegal _ => .next (rejectWord w { s with inputs := rest, resp := .writeDone })) ∧
  ∀ (s : State) (w : Nat), w < 2 ^ 32 →
    (s.withFetchWord 32 w).inputs = .host (.write (s.base + 0x0C) (BitVec.ofNat 32 w)) :: s.inputs

/-- R191: a dropped write sets CMD_DROP and has no other effect. -/
def Obligations.DroppedWordsOnlySetCmdDrop : Prop :=
  ∀ (w : Word) (s : State), w ≠ 0x00000000 → s.seq ≠ .waitNone ∨ (s.phase = .error ∧ w ≠ 0x00000004) →
    acceptWord w s = .next { s with cmdDrop := true }

/-- R193, R244: the legality table, for a core that is not BUSY. -/
def Obligations.PhaseLegalityTable : Prop :=
  ∀ s : State, s.seq = .waitNone →
    (s.phase ≠ .error → exec .init s = .next (initBody s)) ∧
    (s.phase = .absorb → exec .push s = .next (pushBody s)) ∧
    (s.phase = .idle ∨ s.phase = .done → exec .push s = .next { s with
      k1 := 0, k2 := 0, x := 0, keyS := [], lenS := 0, remS := 0, outB := 0, outValid := false, pending := none,
      seq := .waitNone, errCode := .sequenceError, errInfo := if s.phase = .idle then 0x002 else 0x202,
      phase := .error, ip := true }) ∧
    (s.phase ≠ .error → exec .double s = .next (doubleBody s)) ∧
    exec .clear s = .next (clearAll s) ∧
    (s.phase = .error → ∀ i, i = .init ∨ i = .push ∨ i = .double → exec i s = .next { s with cmdDrop := true })

/-! ### The five commands -/

/-- R195: NOP has no effect in any state; a word with OP = 0 and RSVD ≠ 0 is not NOP: it is illegal and goes through the
later checks. -/
def Obligations.NopChangesNothing : Prop :=
  encode .nop = 0x00000000 ∧ (∀ s : State, exec .nop s = .next s ∧ acceptWord 0x00000000 s = .next s) ∧
  ∀ w : Word, w.extractLsb' 0 4 = 0 → w.extractLsb' 4 28 ≠ 0 →
    decode w = .illegal .reservedBits ∧ ∀ s : State, acceptWord w s = .next (rejectWord w s)

/-- INIT with a legal key length opens a message (R197, its execute step): completion and frame. -/
def Obligations.InitOpensMessage : Prop :=
  ∀ s : State, s.seq = .waitNone → s.phase ≠ .error → s.keyLen = 16 ∨ s.keyLen = 24 ∨ s.keyLen = 32 →
    exec .init s = .next { s with
      outB := 0, outValid := false, blkIdx := 0, k1 := 0, k2 := 0, x := 0,
      keyS := (bytesOf s.keyB).take s.keyLen.toNat, lenS := s.msgLen,
      nblk := (classify s.msgLen).blockCount, lastComplete := (classify s.msgLen).lastComplete,
      remS := (classify s.msgLen).rem, phase := .absorb,
      pending := some ⟨(bytesOf s.keyB).take s.keyLen.toNat, 0⟩, seq := .waitL }

/-- A key length other than 16, 24, 32 is INVALID_KEY_LENGTH in the acceptance step; no request is issued, so the cipher
agent has no step (R198, R245). That an answer of it is then refused by name is the model's, log entry 11. -/
def Obligations.InitRefusesBadKeyLength : Prop :=
  ∀ s : State, s.seq = .waitNone → s.phase ≠ .error → s.keyLen ≠ 16 → s.keyLen ≠ 24 → s.keyLen ≠ 32 →
    ∃ t, exec .init s = .next t ∧
      t = { s with
        outB := 0, outValid := false, nblk := 0, blkIdx := 0, lastComplete := false, k1 := 0, k2 := 0, x := 0,
        keyS := [], lenS := 0, remS := 0, pending := none, seq := .waitNone, errCode := .invalidKeyLength,
        errInfo := 0x00070000 ||| s.keyLen.setWidth 32, phase := .error, ip := true } ∧
      ∀ r, cipherStep r t = .refused .cipherStepNotEnabled

/-- INIT right after reset raises INVALID_KEY_LENGTH with ERR_INFO 0x00070000; reset leaves no key, no length. The spec
marks the first as its own inference (70_reset_and_hazards.md section 1, R283). -/
def Obligations.InitAfterResetFails : Prop :=
  State.reset.keyLen = 0 ∧ State.reset.keyB = 0 ∧ State.reset.msgLen = 0 ∧
  ∃ t, exec .init State.reset = .next t ∧ t.phase = .error ∧ t.errCode = .invalidKeyLength ∧ t.errInfo = 0x00070000

/-- PUSH with a message open (R200): a non-last block goes to the chainer, the last block, padded with K2 or whole with
K1, to the tag request. Completion and frame. -/
def Obligations.PushIssuesCipherRequest : Prop :=
  ∀ s : State, s.seq = .waitNone → s.phase = .absorb →
    (s.blkIdx.toNat + 1 < s.nblk.toNat →
      exec .push s = .next { s with pending := some ⟨s.keyS, s.x ^^^ s.dataB⟩, seq := .waitChain }) ∧
    (¬ s.blkIdx.toNat + 1 < s.nblk.toNat → s.lastComplete = true →
      exec .push s = .next { s with pending := some ⟨s.keyS, (s.dataB ^^^ s.k1) ^^^ s.x⟩, seq := .waitTag }) ∧
    (¬ s.blkIdx.toNat + 1 < s.nblk.toNat → s.lastComplete = false →
      exec .push s = .next
        { s with pending := some ⟨s.keyS, (pad s.dataB s.remS ^^^ s.k2) ^^^ s.x⟩, seq := .waitTag })

/-- R210: DOUBLE writes dbl(DATAB) to OUTB and sets OUT_VALID and IP; in ERROR the word is dropped. -/
def Obligations.DoubleWritesDoubledBlock : Prop :=
  encode .double = 0x00000003 ∧
  (∀ s : State, s.seq = .waitNone → s.phase ≠ .error →
    exec .double s = .next { s with outB := dbl s.dataB, outValid := true, ip := true }) ∧
  (∀ s : State, s.phase = .error → exec .double s = .next { s with cmdDrop := true }) ∧
  dbl 0x80000000000000000000000000000000 = 0x00000000000000000000000000000087

/-- R214: CLEAR discards all invocation state and leaves ERROR; CTRL, KEYB, MSGLEN and DATAB are kept; while BUSY it is
dropped. -/
def Obligations.ClearReturnsToIdle : Prop :=
  encode .clear = 0x00000004 ∧
  (∀ s : State, s.seq = .waitNone → exec .clear s = .next { s with
    k1 := 0, k2 := 0, x := 0, keyS := [], lenS := 0, remS := 0, outB := 0, outValid := false, nblk := 0, blkIdx := 0,
    lastComplete := false, errCode := .noError, errInfo := 0, cmdDrop := false, ip := false, phase := .idle }) ∧
  (∀ s : State, s.seq = .waitNone → ∀ t, exec .clear s = .next t → statusWord t = 0x00000000) ∧
  ∀ s : State, s.seq ≠ .waitNone → exec .clear s = .next { s with cmdDrop := true }

/-! ### Cipher responses -/

/-- R203: the WAIT_L response derives K1 and K2 from L; the empty message issues the tag request in the same step, any
other message waits for its blocks. -/
def Obligations.SubkeyResponseDerivesSubkeys : Prop :=
  ∀ s : State, s.seq = .waitL → s.pending = some ⟨s.keyS, 0⟩ →
    cipherStep .ok s =
      if s.lenS = 0 then .next { s with
        k1 := dbl (Config.encryptBlock s.keyS 0), k2 := dbl (dbl (Config.encryptBlock s.keyS 0)),
        pending := some ⟨s.keyS,
          (0x80000000000000000000000000000000 ^^^ dbl (dbl (Config.encryptBlock s.keyS 0))) ^^^ s.x⟩,
        seq := .waitTag }
      else .next { s with
        k1 := dbl (Config.encryptBlock s.keyS 0), k2 := dbl (dbl (Config.encryptBlock s.keyS 0)),
        pending := none, seq := .waitNone, ip := true }

/-- R204: the WAIT_CHAIN response writes X and advances BLKIDX; that BLKIDX stays below NBLK is the spec's own inference
("After this step, `BLKIDX < NBLK` still holds"). -/
def Obligations.ChainResponseAdvances : Prop :=
  ∀ (s : State) (k : Key) (b : Block), s.seq = .waitChain → s.pending = some ⟨k, b⟩ →
    cipherStep .ok s = .next { s with
      pending := none, x := Config.encryptBlock k b, blkIdx := s.blkIdx + 1, seq := .waitNone, ip := true } ∧
    (s.blkIdx.toNat + 1 < s.nblk.toNat → (s.blkIdx + 1).toNat < s.nblk.toNat)

/-- R205: the WAIT_TAG response writes the tag, zeroizes and closes the message; BLKIDX becomes NBLK. -/
def Obligations.TagResponseClosesMessage : Prop :=
  ∀ (s : State) (k : Key) (b : Block), s.seq = .waitTag → s.pending = some ⟨k, b⟩ →
    cipherStep .ok s = .next { s with
      pending := none, outB := Config.encryptBlock k b, outValid := true, blkIdx := s.blkIdx + 1,
      k1 := 0, k2 := 0, x := 0, keyS := [], lenS := 0, remS := 0, phase := .done, seq := .waitNone, ip := true } ∧
    (s.blkIdx.toNat + 1 = s.nblk.toNat → s.blkIdx + 1 = s.nblk)

/-- R243: an Err(c) response is CIPHER_FAULT whatever `st.seq` is, with c forwarded unchanged. -/
def Obligations.CipherFailureEntersError : Prop :=
  ∀ (s : State) (req : CipherRequest) (c : Byte), s.pending = some req → s.cipherFaults = true →
    cipherStep (.err c) s = .next { s with
      pending := none, seq := .waitNone, k1 := 0, k2 := 0, x := 0, keyS := [], lenS := 0, remS := 0, outB := 0,
      outValid := false, errCode := .cipherFault, errInfo := c.setWidth 32, phase := .error, ip := true }

/-- The cipher agent has a step exactly while a request is pending, and may fail exactly when CIPHER_FAULTS admits it
(R51): without a request both answers are refused, with one that the sequencer awaits Ok completes. -/
def Obligations.CipherStepOnlyWhilePending : Prop :=
  (∀ (s : State) (r : CipherAnswer), s.pending = none → cipherStep r s = .refused .cipherStepNotEnabled) ∧
  (∀ (s : State) (req : CipherRequest), s.pending = some req → s.seq ≠ .waitNone → ∃ t, cipherStep .ok s = .next t) ∧
  ∀ (s : State) (req : CipherRequest) (c : Byte), s.pending = some req →
    ((∃ t, cipherStep (.err c) s = .next t) ↔ s.cipherFaults = true)

/-! ### Errors -/

/-- R246: entry to ERROR, exactly. -/
def Obligations.RaiseEntersErrorPhase : Prop :=
  ∀ (e : CoreError) (s : State), raise e s = { s with
    k1 := 0, k2 := 0, x := 0, keyS := [], lenS := 0, remS := 0, outB := 0, outValid := false, pending := none,
    seq := .waitNone, errCode := errorCode e, errInfo := errorInfo e, phase := .error, ip := true }

/-- R241: the layout of ERR_INFO for each code, and ERR_INFO 0 with code 0. -/
def Obligations.ErrorInfoLayout : Prop :=
  (∀ s : State, Inv s → errCodeBits s.errCode = 0 → s.errInfo = 0) ∧
  (∀ kl : BitVec 6, let w := errorInfo (.invalidKeyLength kl)
    errCodeBits (errorCode (.invalidKeyLength kl)) = 1 ∧ w.extractLsb' 0 6 = kl ∧ w.extractLsb' 6 10 = 0 ∧
      w.extractLsb' 16 3 = 0b111 ∧ w.extractLsb' 19 13 = 0) ∧
  (∀ c : Byte, let w := errorInfo (.cipherFault c)
    errCodeBits (errorCode (.cipherFault c)) = 2 ∧ w.extractLsb' 0 8 = c ∧ w.extractLsb' 8 24 = 0) ∧
  (∀ w : Word, errCodeBits (errorCode (.illegalCommand w)) = 3 ∧ errorInfo (.illegalCommand w) = w) ∧
  ∀ (op : BitVec 4) (ph : Phase), let w := errorInfo (.sequenceError op ph)
    errCodeBits (errorCode (.sequenceError op ph)) = 4 ∧ w.extractLsb' 0 4 = op ∧ w.extractLsb' 4 4 = 0 ∧
      w.extractLsb' 8 2 = phaseCode ph ∧ w.extractLsb' 10 22 = 0

/-- From every state that meets the invariant, the ERROR phase is left only by hardware reset or by the host writing
CLEAR to CMD; any other step keeps the phase and the first error's record (R249, R250). -/
def Obligations.ErrorLeftOnlyByClearOrReset : Prop :=
  ∀ s t : State, Inv s → s.phase = .error → step s = .next t →
    (t.phase = .error ∧ t.errCode = s.errCode ∧ t.errInfo = s.errInfo) ∨
    (∃ rest, s.inputs = .reset :: rest) ∨ ∃ rest, s.inputs = .host (.write (s.base + 0x0C) 0x00000004) :: rest

/-! ### Registers and the bus -/

/-- The fields of the word a STATUS read returns (R24, R25, R26, R31). -/
def Obligations.StatusReadsFields : Prop :=
  ∀ s : State, let w := readReg .status s
    (w.getLsbD 0 = true ↔ s.seq ≠ .waitNone) ∧
    w.extractLsb' 1 2 = (match s.phase with | .idle => 0 | .absorb => 1 | .done => 2 | .error => 3) ∧
    w.getLsbD 3 = s.lastComplete ∧ w.getLsbD 4 = s.outValid ∧ w.getLsbD 5 = s.cmdDrop ∧ w.getLsbD 6 = s.ip ∧
    w.getLsbD 7 = false ∧
    w.extractLsb' 8 4 = (match s.errCode with
      | .noError => 0 | .invalidKeyLength => 1 | .cipherFault => 2 | .illegalCommand => 3 | .sequenceError => 4) ∧
    w.extractLsb' 12 20 = 0

/-- R32: a write to STATUS clears CMD_DROP by bit 5 and IP by bit 6, and does nothing else, whatever BUSY and PHASE. -/
def Obligations.StatusWriteClearsFlags : Prop :=
  ∀ (v : Word) (s : State), writeReg .status v s = .next { s with
    cmdDrop := if v.getLsbD 5 then false else s.cmdDrop, ip := if v.getLsbD 6 then false else s.ip }

/-- R29: CMD_DROP is sticky. Dropped words set it; bit 5 of a STATUS write and CLEAR clear it; a step that clears it is
one of these or reset. -/
def Obligations.CmdDropIsSticky : Prop :=
  (∀ (w : Word) (s : State), w ≠ 0 → s.seq ≠ .waitNone ∨ (s.phase = .error ∧ w ≠ 4) →
    ∃ t, acceptWord w s = .next t ∧ t.cmdDrop = true) ∧
  (∀ (v : Word) (s : State), ∃ t, writeReg .status v s = .next t ∧
    t.cmdDrop = if v.getLsbD 5 then false else s.cmdDrop) ∧
  (∀ s : State, s.seq = .waitNone → ∃ t, exec .clear s = .next t ∧ t.cmdDrop = false) ∧
  ∀ s t : State, step s = .next t → s.cmdDrop = true → t.cmdDrop = false →
    (∃ rest, s.inputs = .reset :: rest) ∨
    (∃ rest, s.inputs = .host (.write (s.base + 0x0C) 0x00000004) :: rest) ∨
    ∃ v rest, s.inputs = .host (.write (s.base + 0x08) v) :: rest ∧ v.getLsbD 5 = true

/-- CTRL stores bits 5:0 and 8 of what is written and reads them back with every other bit 0 (R22, R23). -/
def Obligations.CtrlStoresAndReadsBack : Prop :=
  ∀ (v : Word) (s : State),
    writeReg .ctrl v s = .next { s with keyLen := v.extractLsb' 0 6, ie := v.getLsbD 8 } ∧
    readReg .ctrl s = ((if s.ie then 1 else 0) <<< 8) ||| s.keyLen.setWidth 32

/-- R41: reserved offsets, read-only registers and reserved bits: read 0 where reserved, writes without effect and with
a normal response. -/
def Obligations.ReservedAndReadOnlyIgnoreWrites : Prop :=
  (∀ (off : Nat) (v : Word) (s : State), off ∈ [0x2C, 0x30, 0x34, 0x38, 0x3C] →
    readWindow off s = 0 ∧ writeWindow off v s = .next s ∧
    busStep (.write (s.base + off) v) s = .next { s with resp := .writeDone }) ∧
  (∀ (off : Nat) (v : Word) (s : State),
    off ∈ [0x00, 0x10, 0x1C, 0x20, 0x24, 0x28, 0x70, 0x74, 0x78, 0x7C] →
    busStep (.write (s.base + off) v) s = .next { s with resp := .writeDone }) ∧
  (∀ (v v' : Word) (s : State), v.extractLsb' 0 6 = v'.extractLsb' 0 6 → v.getLsbD 8 = v'.getLsbD 8 →
    writeReg .ctrl v s = writeReg .ctrl v' s) ∧
  (∀ (v v' : Word) (s : State), v.getLsbD 5 = v'.getLsbD 5 → v.getLsbD 6 = v'.getLsbD 6 →
    writeReg .status v s = writeReg .status v' s) ∧
  ∀ s : State, (readReg .ctrl s).extractLsb' 6 2 = 0 ∧ (readReg .ctrl s).extractLsb' 9 23 = 0 ∧
    (readReg .status s).getLsbD 7 = false ∧ (readReg .status s).extractLsb' 12 20 = 0

/-- R21: every read of ID returns 0x434D4143 and a write has no effect. -/
def Obligations.IdReadsConstant : Prop :=
  ∀ s : State, busStep (.read s.base) s = .next { s with resp := .readData 0x434D4143 } ∧
    ∀ v, busStep (.write s.base v) s = .next { s with resp := .writeDone }

/-- A write to KEYj puts the word's four bytes, first byte in bits 31:24, at KEYB[4j .. 4j+3] and changes no other byte
and no other field; KEYj reads 0 (R38, R75). -/
def Obligations.KeyWritePlacesBytes : Prop :=
  ∀ (j : Fin 8) (v : Word) (s : State), ∃ kb : KeyStore,
    writeReg (.key j) v s = .next { s with keyB := kb } ∧
    byteAt kb (4 * j.val) = v.extractLsb' 24 8 ∧ byteAt kb (4 * j.val + 1) = v.extractLsb' 16 8 ∧
    byteAt kb (4 * j.val + 2) = v.extractLsb' 8 8 ∧ byteAt kb (4 * j.val + 3) = v.extractLsb' 0 8 ∧
    (∀ i, i < 32 → i / 4 ≠ j.val → byteAt kb i = byteAt s.keyB i) ∧ readReg (.key j) s = 0

/-- DATA0..DATA3 and OUT0..OUT3 each read as one big-endian block, word 0 most significant; a write to DATAj is read back
there, changes no other DATA word and no other field (R39, R40, R75). -/
def Obligations.BlockRegistersAreBigEndian : Prop :=
  (∀ s : State, s.dataB =
    readReg (.data 0) s ++ readReg (.data 1) s ++ readReg (.data 2) s ++ readReg (.data 3) s) ∧
  (∀ s : State, s.outB = readReg (.out 0) s ++ readReg (.out 1) s ++ readReg (.out 2) s ++ readReg (.out 3) s) ∧
  ∀ (j : Fin 4) (v : Word) (s : State), ∃ db : Block, writeReg (.data j) v s = .next { s with dataB := db } ∧
    ∀ i : Fin 4, readReg (.data i) { s with dataB := db } = if i = j then v else readReg (.data i) s

/-- MSGLEN_HI:MSGLEN_LO, NBLK and BLKIDX are read as two words; writing both MSGLEN words, in either order, stores any
64-bit length (R35, R36, R37). -/
def Obligations.LengthRegistersAssemble : Prop :=
  (∀ s : State, readReg .msgLenHi s ++ readReg .msgLenLo s = s.msgLen ∧
    readReg .nblkHi s ++ readReg .nblkLo s = s.nblk ∧ readReg .blkIdxHi s ++ readReg .blkIdxLo s = s.blkIdx) ∧
  ∀ (lo hi : Word) (s : State),
    writeMsgLenHi hi (writeMsgLenLo lo s) = { s with msgLen := hi ++ lo } ∧
    writeMsgLenLo lo (writeMsgLenHi hi s) = { s with msgLen := hi ++ lo } ∧
    writeReg .msgLenLo lo s = .next (writeMsgLenLo lo s) ∧ writeReg .msgLenHi hi s = .next (writeMsgLenHi hi s)

/-- An access reaches the register that R20 gives its offset, here by `windowTable`, the literal offsets of R20: a read answers that
register's value and a write is a write to that register, with a normal response. A read never has a side effect: it
changes the schedule and the host's response only (R77, first bullet; R79). CMD and KEYj read 0 and ERR_INFO reads the
error's detail (R33, R34, R38). What the host last received stands in the model's own field, log entry 4. -/
def Obligations.AccessReachesRegisterAtOffset : Prop :=
  (∀ (s : State) (addr : Nat) (rest : List Event), s.inputs = .host (.read addr) :: rest →
    ∃ r, step s = .next { s with inputs := rest, resp := r } ∧
      (s.base ≤ addr → addr < s.base + 0x80 → (addr - s.base) % 4 = 0 →
        r = .readData (readWindow (addr - s.base) s))) ∧
  (∀ (s : State) (off : Nat) (r : Reg), (off, r) ∈ windowTable →
    readWindow off s = readReg r s ∧
    busStep (.read (s.base + off)) s = .next { s with resp := .readData (readReg r s) } ∧
    ∀ v, busStep (.write (s.base + off) v) s = writeReg r v { s with resp := .writeDone }) ∧
  ∀ s : State, readReg .cmd s = 0 ∧ readReg .errInfo s = s.errInfo ∧ ∀ j, readReg (.key j) s = 0

/-- A misaligned 32-bit access and an access of any other width get a bus error: the core's state does not change and a
read returns 0 (R72, R73). That the machine goes on from it is the model's choice, log entry 4. -/
def Obligations.BadAccessGetsBusError : Prop :=
  ∀ (s : State) (addr : Nat), s.base ≤ addr → addr < s.base + 0x80 →
    ((addr - s.base) % 4 ≠ 0 → busStep (.read addr) s = .next { s with resp := .readError 0 } ∧
      ∀ v, busStep (.write addr v) s = .next { s with resp := .writeError }) ∧
    ∀ wd, busStep (.readOther addr wd) s = .next { s with resp := .readError 0 } ∧
      busStep (.writeOther addr wd) s = .next { s with resp := .writeError }

/-- An access outside the window is answered by the platform and leaves the core alone (R70, R71). What the platform
answers is not modelled, log entry 4. -/
def Obligations.OutsideAccessLeavesCore : Prop :=
  ∀ (s : State) (a : BusAccess) (addr : Nat), addr < s.base ∨ s.base + 0x80 ≤ addr →
    (a = .read addr ∨ (∃ v, a = .write addr v) ∨ (∃ wd, a = .readOther addr wd) ∨ ∃ wd, a = .writeOther addr wd) →
    busStep a s = .next { s with resp := .platform }

/-- R42, with the level behaviour of R255: irq is IE AND IP; a CTRL write changes irq at once and IP not. -/
def Obligations.IrqIsEnableAndPending : Prop :=
  (∀ s : State, irq s = (s.ie && s.ip)) ∧
  ∀ (v : Word) (s : State), ∃ t, writeReg .ctrl v s = .next t ∧ t.ip = s.ip ∧ irq t = (v.getLsbD 8 && s.ip)

/-! ### The datapath -/

/-- R111: doubling in byte form with explicit carries. -/
def Obligations.DblByteForm : Prop :=
  ∀ b : Block,
    (∀ j, j < 15 → byteAt (dbl b) j = (byteAt b j <<< 1) ||| (byteAt b (j + 1) >>> 7)) ∧
    byteAt (dbl b) 15 =
      if byteAt b 0 &&& 0x80 ≠ 0 then (byteAt b 15 <<< 1) ^^^ 0x87 else byteAt b 15 <<< 1

/-- `half` undoes `dbl` and `dbl` undoes `half`: the spec's own inference from R110 (R115). -/
def Obligations.DblIsBijection : Prop :=
  (∀ d : Block, half d =
    if d.getLsbD 0 then ((d ^^^ 0x87) >>> 1) ||| 0x80000000000000000000000000000000 else d >>> 1) ∧
  (∀ b : Block, half (dbl b) = b) ∧ (∀ d : Block, dbl (half d) = d) ∧ Function.Bijective dbl

/-- K2 in terms of L: the spec's own inference from R110 and R113 (R116). -/
def Obligations.SecondSubkeyClosedForm : Prop :=
  ∀ l : Block, (subkeys l).2 =
    (l <<< 2) ^^^ (if l.getLsbD 127 then 0x10E else 0) ^^^ (if l.getLsbD 126 then 0x87 else 0)

/-- R130, R131: the segmenter's outputs in integer terms and their range at the top of 64 bits; `classify(40)` is R130's
example. -/
def Obligations.ClassifyCountsBlocks : Prop :=
  (classify 0 = ⟨1, false, 0⟩ ∧ classify 40 = ⟨3, false, 8⟩) ∧
  ∀ n : BitVec 64,
    (n ≠ 0 → (classify n).blockCount.toNat = (n.toNat + 15) / 16) ∧
    ((classify n).lastComplete = true ↔ n ≠ 0 ∧ n.toNat % 16 = 0) ∧
    (classify n).rem.toNat = n.toNat % 16 ∧
    1 ≤ (classify n).blockCount.toNat ∧ (classify n).blockCount.toNat ≤ 2 ^ 60 ∧
    ((classify n).blockCount.toNat = 2 ^ 60 ↔ 2 ^ 64 - 15 ≤ n.toNat) ∧
    (n.toNat = 2 ^ 64 - 16 → (classify n).blockCount.toNat = 2 ^ 60 - 1 ∧ (classify n).lastComplete = true)

/-- R133: byte by byte, `pad(D, r)` is D up to r, then 0x80, then 0. -/
def Obligations.PadLaysOutBytes : Prop :=
  ∀ (d : Block) (r : BitVec 4) (j : Nat), j < 16 →
    byteAt (pad d r) j = if j < r.toNat then byteAt d j else if j = r.toNat then 0x80 else 0x00

/-- R137: in an incomplete last block the DATAB bytes at positions rem .. 15 are ignored: two DATA blocks that agree
before them make PUSH issue the same request, and neither raises an error. -/
def Obligations.PushIgnoresBytesBeyondRemainder : Prop :=
  ∀ (s : State) (d : Block), s.seq = .waitNone → s.phase = .absorb → ¬ s.blkIdx.toNat + 1 < s.nblk.toNat →
    s.lastComplete = false → (∀ j, j < s.remS.toNat → byteAt d j = byteAt s.dataB j) →
    ∃ req, exec .push s = .next { s with pending := some req, seq := .waitTag } ∧
      exec .push { s with dataB := d } = .next { s with dataB := d, pending := some req, seq := .waitTag }

/-- The spec's own inference R136: `classify` and `lastBlock` compute the document's `segment` of every message of less
than 2^64 bytes, whatever stands in DATAB beyond the message. -/
def Obligations.SegmenterMatchesDocument : Prop :=
  ∀ m : List Byte, m.length < 2 ^ 64 →
    let c := classify (BitVec.ofNat 64 m.length)
    c.blockCount.toNat = (segmentMessage m).blockCount ∧ c.lastComplete = (segmentMessage m).lastComplete ∧
    (m = [] → lastBlock 0 c.lastComplete c.rem = (segmentMessage m).lastBlock) ∧
    (m ≠ [] → ∀ d : Block,
      (∀ j, j < 16 → 16 * (c.blockCount.toNat - 1) + j < m.length →
        some (byteAt d j) = m[16 * (c.blockCount.toNat - 1) + j]?) →
      lastBlock d c.lastComplete c.rem = (segmentMessage m).lastBlock)

/-! ### Reset -/

/-- R55: the reset value of every piece of the core's state. -/
def Obligations.ResetMatchesTable : Prop :=
  let s := State.reset
  readReg .id s = 0x434D4143 ∧ s.keyLen = 0 ∧ s.ie = false ∧ busy s = false ∧ s.seq = .waitNone ∧ s.phase = .idle ∧
  s.lastComplete = false ∧ s.outValid = false ∧ s.cmdDrop = false ∧ s.ip = false ∧ s.errCode = .noError ∧
  s.errInfo = 0 ∧ s.msgLen = 0 ∧ s.nblk = 0 ∧ s.blkIdx = 0 ∧ s.keyB = 0 ∧ s.dataB = 0 ∧ s.outB = 0 ∧ s.keyS = [] ∧
  s.lenS = 0 ∧ s.remS = 0 ∧ s.k1 = 0 ∧ s.k2 = 0 ∧ s.x = 0 ∧ s.pending = none ∧ irq s = false

/-- The reset input puts every piece of the core's state at its reset value from any state, and a response to a request
pending before it is never delivered (R280). That reset is one event which keeps the platform's parameters, the schedule
and what the host last received is the model's choice, log entry 10. -/
def Obligations.ResetInputRestoresReset : Prop :=
  ∀ (s : State) (rest : List Event), s.inputs = .reset :: rest →
    ∃ t, step s = .next t ∧
      t = { State.reset with base := s.base, cipherFaults := s.cipherFaults, inputs := rest, resp := s.resp } ∧
      ∀ r, cipherStep r t = .refused .cipherStepNotEnabled

/-! ### The whole machine -/

/-- The invariant holds after hardware reset, for every legal base, cipher and schedule. -/
def Obligations.BootStateMeetsInvariant : Prop :=
  ∀ (base : Nat) (cf : Bool) (inputs : List Event), base % 0x80 = 0 → Inv (bootState base cf inputs)

/-- Every step from every state that meets the invariant gives a state that meets it. -/
def Obligations.StepKeepsInvariant : Prop :=
  ∀ s t : State, Inv s → step s = .next t → Inv t

/-- Every reachable state meets the seven invariants of R48, which the spec marks as its own inference, for every legal
base, cipher and schedule (log entries 1 to 3). -/
def Obligations.ReachableMeetsSpecInvariants : Prop :=
  ∀ s : State, Reachable s → SpecInvariants s

/-- Every step takes one event from the schedule and leaves CMAC_BASE and CIPHER_FAULTS as they are (R9, R71). -/
def Obligations.StepKeepsParameters : Prop :=
  ∀ s t : State, step s = .next t →
    t.base = s.base ∧ t.cipherFaults = s.cipherFaults ∧ t.inputs = s.inputs.tail

/-- A step is refused only where the cipher agent has no such step, and faults only in a state R48 rules out: no host
access, command or reset stops the machine (R7, R51). That such a step is refused by name is log entry 11. -/
def Obligations.OnlyDisabledCipherStepsStop : Prop :=
  ∀ s : State, Inv s → (∀ t, step s ≠ .next t) →
    (∃ r rest, s.inputs = .cipher r :: rest ∧ s.pending = none) ∨
    ∃ c rest, s.inputs = .cipher (.err c) :: rest ∧ s.cipherFaults = false

/-- IP rises only in a step that completes INIT, PUSH or DOUBLE or enters ERROR (R254), and falls only by bit 6 of a
STATUS write, by CLEAR or by reset (R30, R280); bit 6 and CLEAR do clear it, and a 0 in bit 6 leaves it. -/
def Obligations.IpChangesOnlyAsRuled : Prop :=
  (∀ s t : State, Inv s → step s = .next t → s.ip = false → t.ip = true →
    (s.phase ≠ .error ∧ t.phase = .error) ∨
    (∃ rest, s.inputs = .cipher .ok :: rest ∧ s.seq ≠ .waitNone ∧ t.seq = .waitNone) ∨
    ∃ rest, s.inputs = .host (.write (s.base + 0x0C) 0x00000003) :: rest ∧ t.outB = dbl s.dataB) ∧
  (∀ s t : State, step s = .next t → s.ip = true → t.ip = false →
    (∃ rest, s.inputs = .reset :: rest) ∨
    (∃ rest, s.inputs = .host (.write (s.base + 0x0C) 0x00000004) :: rest ∧ s.seq = .waitNone) ∨
    ∃ v rest, s.inputs = .host (.write (s.base + 0x08) v) :: rest ∧ v.getLsbD 6 = true) ∧
  (∀ (v : Word) (s : State), ∃ t, writeReg .status v s = .next t ∧ t.ip = if v.getLsbD 6 then false else s.ip) ∧
  ∀ s : State, s.seq = .waitNone → ∃ t, exec .clear s = .next t ∧ t.ip = false

/-- While a cipher call is in flight, no host access changes the request, the sequencer, a snapshot, the result, the
progress registers or the error record (R54, R82, R191, R292). -/
def Obligations.HostAccessLeavesInFlightCommand : Prop :=
  ∀ (s : State) (a : BusAccess) (rest : List Event), s.seq ≠ .waitNone → s.inputs = .host a :: rest →
    ∃ t, step s = .next t ∧ t.pending = s.pending ∧ t.seq = s.seq ∧ t.phase = s.phase ∧ t.keyS = s.keyS ∧
      t.lenS = s.lenS ∧ t.remS = s.remS ∧ t.k1 = s.k1 ∧ t.k2 = s.k2 ∧ t.x = s.x ∧ t.nblk = s.nblk ∧
      t.blkIdx = s.blkIdx ∧ t.lastComplete = s.lastComplete ∧ t.outB = s.outB ∧ t.outValid = s.outValid ∧
      t.errCode = s.errCode ∧ t.errInfo = s.errInfo

/-- A cipher response reads no register the host writes and changes none: replacing CTRL, MSGLEN, KEYB and DATAB before
it or after it gives the same state (R78, R202). -/
def Obligations.ResponseIgnoresHostRegisters : Prop :=
  ∀ (r : CipherAnswer) (s : State) (kl : BitVec 6) (ie : Bool) (ml : BitVec 64) (kb : KeyStore) (db : Block),
    cipherStep r (withHostRegisters kl ie ml kb db s) =
      match cipherStep r s with
      | .next t => .next (withHostRegisters kl ie ml kb db t)
      | .fault f => .fault f
      | .refused q => .refused q

/-- The registers the host writes change only by reset or by the host's own write to CTRL, MSGLEN, KEYj or DATAj (R78,
R246). -/
def Obligations.HostRegistersChangeOnlyByHostWrite : Prop :=
  ∀ s t : State, step s = .next t →
    (∀ rest, s.inputs ≠ .reset :: rest) →
    (∀ (off : Nat) (v : Word) (rest : List Event), off = 0x04 ∨ off = 0x14 ∨ off = 0x18 ∨ (0x40 ≤ off ∧ off < 0x70) →
      s.inputs ≠ .host (.write (s.base + off) v) :: rest) →
    t.keyLen = s.keyLen ∧ t.ie = s.ie ∧ t.msgLen = s.msgLen ∧ t.keyB = s.keyB ∧ t.dataB = s.dataB

/-- No read tells states apart that agree on what the host may see: KEYB, K1, K2, X and the key snapshot are held back
from every reader (R38, R154, R260). -/
def Obligations.ReadsRevealNoSecrets : Prop :=
  ∀ (off : Nat) (s s' : State), hostView s = hostView s' → readWindow off s = readWindow off s'

/-- A command in flight ends within two Ok answers, in ABSORB or DONE (R194; liveness of R291 with the answers given).
-/
def Obligations.BusyEndsWithinTwoAnswers : Prop :=
  ∀ (s : State) (rest : List Event), Inv s → s.seq ≠ .waitNone → s.inputs = .cipher .ok :: .cipher .ok :: rest →
    ∃ t, (core.run 1 s = .next t ∨ core.run 2 s = .next t) ∧ busy t = false ∧ t.ip = true ∧
      (t.phase = .absorb ∨ t.phase = .done)

/-- The host program LDKEY leaves CTRL and KEYB so that INIT's key operand is the key, of any length up to 32 bytes, and
changes nothing else of the core (R75, R97). -/
def Obligations.LoadKeySetsOperand : Prop :=
  ∀ (s : State) (ie : Bool) (k : Key) (es rest : List Event), asmLdkey ie s.base k = some es → s.inputs = es ++ rest →
    ∃ t kb, core.run es.length s = .next t ∧
      t = { s with keyLen := BitVec.ofNat 6 k.length, ie := ie, keyB := kb, inputs := rest, resp := .writeDone } ∧
      keyOperand t = k

/-- The spec's own inference R218: from every state that is not BUSY and not in ERROR, with a legal KEYLEN, the schedule
of one message (INIT, then one block and PUSH for each of the NBLK blocks, each awaited with any number of STATUS reads,
every cipher response Ok) ends in DONE with the tag `computeCmac` of the bytes pushed. It holds for every cipher
function E. -/
def Obligations.MessageTagIsCmac : Prop :=
  ∀ (s : State) (before between after : Nat) (ps : List (Block × Nat × Nat)),
    s.seq = .waitNone → s.phase ≠ .error → s.keyLen = 16 ∨ s.keyLen = 24 ∨ s.keyLen = 32 →
    ps.length = (if s.msgLen = 0 then 0 else (classify s.msgLen).blockCount.toNat) →
    s.inputs = messageSchedule s.base s.msgLen before between after ps →
    ∃ t, core.run s.inputs.length s = .next t ∧ t.phase = .done ∧ t.outValid = true ∧ busy t = false ∧
      t.cmdDrop = s.cmdDrop ∧ (pushedMessage s.msgLen ps).length = s.msgLen.toNat ∧
      t.outB = computeCmac Config.encryptBlock (keyOperand s) (pushedMessage s.msgLen ps)

/-- R98 with R174: the whole host program for a message m under a key k, with its RDOUT, computes `computeCmac(k, m)` and
reads it from OUT0..OUT3 word by word, first word most significant, from every state that is not BUSY and not in ERROR,
for every key of 16, 24 or 32 bytes, every message of less than 2^64 bytes, every number of STATUS reads in each WAIT
(log entry 13) and every cipher function E, every cipher response being Ok. -/
def Obligations.HostProgramComputesCmac : Prop :=
  ∀ (s : State) (k : Key) (m : List Byte) (es program : List Event) (before between after : Nat)
    (polls : Nat → Nat × Nat),
    s.seq = .waitNone → s.phase ≠ .error → k.length = 16 ∨ k.length = 24 ∨ k.length = 32 → m.length < 2 ^ 64 →
    asmLdkey false s.base k = some es →
    program = es ++ asmLdlen s.base (BitVec.ofNat 64 m.length) ++
      messageSchedule s.base (BitVec.ofNat 64 m.length) before between after
        (if m = [] then [] else
          (List.range ((m.length + 15) / 16)).map fun i => (messageBlock m i, polls i)) →
    s.inputs = program ++ asmRdout s.base →
    ∃ (t : State) (word : Fin 4 → Word),
      core.run s.inputs.length s = .next t ∧ t.phase = .done ∧ t.outValid = true ∧ busy t = false ∧
      t.outB = computeCmac Config.encryptBlock k m ∧ t.outB = word 0 ++ word 1 ++ word 2 ++ word 3 ∧
      ∀ j : Fin 4, ∃ u : State, core.run (program.length + j.val + 1) s = .next u ∧ u.phase = .done ∧
        u.resp = .readData (word j)

/-! ### The cipher port and the wait for an answer -/

/-- The request half of the cipher port (R50): valid exactly while a request is pending; the key's length, 16, 24 or 32 in
every state that meets the invariant; key byte j at bits 255-8j : 248-8j, 0 in the unused bytes; the block. -/
def Obligations.CipherPortShowsRequest : Prop :=
  (∀ s : State, cipherPort s = none ↔ s.pending = none) ∧
  (∀ (s : State) (req : CipherRequest), Inv s → s.pending = some req →
    req.key.length = 16 ∨ req.key.length = 24 ∨ req.key.length = 32) ∧
  ∀ (s : State) (req : CipherRequest), s.pending = some req → req.key.length ≤ 32 →
    ∃ p, cipherPort s = some p ∧ p.keylen.toNat = req.key.length ∧ p.block = req.block ∧
      ∀ j, j < 32 → p.key.extractLsb' (248 - 8 * j) 8 = if h : j < req.key.length then req.key[j] else 0

/-- R291: a wait for BUSY = 0 ends only by an answer of the cipher (or reset); with neither in the schedule the core stays
BUSY on the same request for good; under weak fairness, the named assumption, every wait ends, within the events the
schedule holds. Weak fairness is said of the model's schedule, log entries 1 and 14. -/
def Obligations.WaitEndsOnlyByAnswerAndFairly : Prop :=
  (∀ s t : State, s.seq ≠ .waitNone → step s = .next t → t.seq = .waitNone →
    (∃ r rest, s.inputs = .cipher r :: rest) ∨ ∃ rest, s.inputs = .reset :: rest) ∧
  (∀ (s t : State) (n : Nat), s.seq ≠ .waitNone → (∀ e ∈ s.inputs, isHostEvent e = true) →
    core.run n s = .next t → busy t = true ∧ t.pending = s.pending) ∧
  ∀ s : State, Inv s → WeaklyFair s → ∃ n t, n ≤ s.inputs.length ∧ core.run n s = .next t ∧ busy t = false
end

