-- ==== Sys2Proof/Laws/Bytes.lean ====
section
/-! SUPPORT. What the byte and word views do: bits, bytes and words of one value, and writes of one word. -/

namespace Sys2Proof.Machine

/-- Bit `i` of a group after a word write: the word where it was put, the old value elsewhere. -/
theorem getLsbD_putWord {n : Nat} (v : BitVec n) (j : Nat) (w : Word) (i : Nat) (hi : i < n) :
    (putWord v j w).getLsbD i =
      if n - 32 - 32 * j ≤ i ∧ i < n - 32 - 32 * j + 32 then w.getLsbD (i - (n - 32 - 32 * j)) else v.getLsbD i := by
  unfold putWord
  generalize n - 32 - 32 * j = lo
  simp only [BitVec.getLsbD_or, BitVec.getLsbD_and, BitVec.getLsbD_not, BitVec.getLsbD_shiftLeft, BitVec.getLsbD_setWidth, BitVec.getLsbD_allOnes, hi, decide_true, Bool.true_and]
  by_cases h1 : i < lo
  · simp [-BitVec.getLsbD_eq_getElem, h1]
  · have : i - lo < n := by omega
    have h1' : lo ≤ i := by omega
    by_cases h2 : i < lo + 32
    · have h3 : i - lo < 32 := by omega
      simp [-BitVec.getLsbD_eq_getElem, h1, h1', h2, h3, this]
    · have h3 : ¬ i - lo < 32 := by omega
      have h4 : w.getLsbD (i - lo) = false := BitVec.getLsbD_of_ge _ _ (by omega)
      simp [-BitVec.getLsbD_eq_getElem, h1, h2, h3, h4]

/-- A bit of a byte of a big-endian value. -/
theorem getLsbD_byteAt {n : Nat} (v : BitVec n) (j i : Nat) :
    (byteAt v j).getLsbD i = (decide (i < 8) && v.getLsbD (n - 8 - 8 * j + i)) := by
  simp [-BitVec.getLsbD_eq_getElem, byteAt]

/-- A bit of a word of a register group. -/
theorem getLsbD_wordAt {n : Nat} (v : BitVec n) (j i : Nat) :
    (wordAt v j).getLsbD i = (decide (i < 32) && v.getLsbD (n - 32 - 32 * j + i)) := by
  simp [-BitVec.getLsbD_eq_getElem, wordAt]

/-- The four bytes of the written word, first byte in bits 31:24 (R75). -/
theorem byteAt_putWord_same {n : Nat} (v : BitVec n) (j : Nat) (w : Word) (b : Nat) (hb : b < 4) (hj : 32 * j + 32 ≤ n) :
    byteAt (putWord v j w) (4 * j + b) = w.extractLsb' (24 - 8 * b) 8 := by
  apply BitVec.eq_of_getLsbD_eq
  intro i hi
  rw [getLsbD_byteAt, getLsbD_putWord _ _ _ _ (by omega), if_pos (by omega)]
  simp [-BitVec.getLsbD_eq_getElem, hi]; congr 1; omega

/-- A word write leaves every byte outside the word as it was. -/
theorem byteAt_putWord_other {n : Nat} (v : BitVec n) (j : Nat) (w : Word) (i : Nat) (hij : i / 4 ≠ j) (hj : 32 * j + 32 ≤ n) (hi : 8 * i + 8 ≤ n) (hn : n % 32 = 0) :
    byteAt (putWord v j w) i = byteAt v i := by
  apply BitVec.eq_of_getLsbD_eq
  intro b hb
  rw [getLsbD_byteAt, getLsbD_byteAt, getLsbD_putWord _ _ _ _ (by omega), if_neg (by omega)]

/-- A word write is read back at its own index and nowhere else. -/
theorem wordAt_putWord {n : Nat} (v : BitVec n) (i j : Nat) (w : Word) (hj : 32 * j + 32 ≤ n) (hi : 32 * i + 32 ≤ n) :
    wordAt (putWord v j w) i = if i = j then w else wordAt v i := by
  apply BitVec.eq_of_getLsbD_eq
  intro b hb
  rw [getLsbD_wordAt, getLsbD_putWord _ _ _ _ (by omega)]
  by_cases h : i = j
  · subst h
    rw [if_pos (by omega), if_pos rfl]; simp [-BitVec.getLsbD_eq_getElem, hb]
  · rw [if_neg (by omega), if_neg h, getLsbD_wordAt]

/-- A block is its four words, the first most significant. -/
theorem block_eq_words (b : Block) : b = wordAt b 0 ++ wordAt b 1 ++ wordAt b 2 ++ wordAt b 3 := by
  apply BitVec.eq_of_getLsbD_eq
  intro i hi
  refine Eq.trans ?_ (BitVec.getLsbD_append (x := wordAt b 0 ++ wordAt b 1 ++ wordAt b 2) (y := wordAt b 3)).symm
  by_cases h : i < 32
  · rw [if_pos h]; simp [-BitVec.getLsbD_eq_getElem, h, getLsbD_wordAt]
  · rw [if_neg h, BitVec.getLsbD_append, BitVec.getLsbD_append]
    simp only [getLsbD_wordAt]
    by_cases h1 : i - 32 < 32
    · simp [-BitVec.getLsbD_eq_getElem, h1]; congr 1; omega
    · by_cases h2 : i - 32 - 32 < 32
      · simp [-BitVec.getLsbD_eq_getElem, h1, h2]; congr 1; omega
      · have : i - 32 - 32 - 32 < 32 := by omega
        simp [-BitVec.getLsbD_eq_getElem, h1, h2, this]; congr 1; omega

/-- A 64-bit register is its two words. -/
theorem highWord_append_lowWord (v : BitVec 64) : highWord v ++ lowWord v = v := by
  symm
  apply BitVec.eq_of_getLsbD_eq
  intro i hi
  refine Eq.trans ?_ (BitVec.getLsbD_append (x := highWord v) (y := lowWord v)).symm
  by_cases h : i < 32
  · simp [-BitVec.getLsbD_eq_getElem, h, lowWord]
  · have : i - 32 < 32 := by omega
    simp [-BitVec.getLsbD_eq_getElem, h, highWord, this]; congr 1; omega

/-- The high word of two words put together. -/
theorem highWord_append (a b : Word) : highWord (a ++ b) = a := by
  apply BitVec.eq_of_getLsbD_eq
  intro i hi
  unfold highWord
  rw [BitVec.getLsbD_extractLsb']
  rw [show (a ++ b : BitVec 64).getLsbD (32 + i) = _ from BitVec.getLsbD_append (x := a) (y := b)]
  simp [-BitVec.getLsbD_eq_getElem, hi]

/-- The low word of two words put together. -/
theorem lowWord_append (a b : Word) : lowWord (a ++ b) = b := by
  apply BitVec.eq_of_getLsbD_eq
  intro i hi
  unfold lowWord
  rw [BitVec.getLsbD_extractLsb']
  rw [show (a ++ b : BitVec 64).getLsbD (0 + i) = _ from BitVec.getLsbD_append (x := a) (y := b)]
  simp [-BitVec.getLsbD_eq_getElem, hi]

/-- One byte more at the end shifts the value up by eight bits. -/
theorem ofBytes_concat (n : Nat) (bs : List Byte) (b : Byte) :
    ofBytes n (bs ++ [b]) = (ofBytes n bs <<< 8) ||| b.setWidth n := by
  simp [ofBytes, List.foldl_append]

/-- Bit `i` of the value of a byte sequence, counted from its last byte. -/
theorem getLsbD_ofBytes (n : Nat) (bs : List Byte) : ∀ i, i < n →
    (ofBytes n bs).getLsbD i = if h : i / 8 < bs.length then (bs[bs.length - 1 - i / 8]'(by omega)).getLsbD (i % 8) else false := by
  induction bs using List.reverseRecOn with
  | nil => intro i hi; simp [ofBytes]
  | append_singleton bs b ih =>
    intro i hi
    rw [ofBytes_concat, BitVec.getLsbD_or, BitVec.getLsbD_shiftLeft, BitVec.getLsbD_setWidth]
    by_cases h : i < 8
    · have h0 : i / 8 = 0 := by omega
      have h1 : i % 8 = i := by omega
      simp [-BitVec.getLsbD_eq_getElem, h, hi, h0, h1]
    · have hb : b.getLsbD i = false := BitVec.getLsbD_of_ge _ _ (by omega)
      rw [ih (i - 8) (by omega), hb]
      have h1 : (i - 8) / 8 = i / 8 - 1 := by omega
      have h2 : (i - 8) % 8 = i % 8 := by omega
      by_cases h3 : i / 8 < bs.length + 1
      · have h4 : (i - 8) / 8 < bs.length := by omega
        have h5 : i / 8 < (bs ++ [b]).length := by simp; omega
        rw [dif_pos h4, dif_pos h5]
        have h6 : (bs ++ [b])[(bs ++ [b]).length - 1 - i / 8]'(by omega) = bs[bs.length - 1 - (i-8) / 8]'(by omega) := by
          rw [List.getElem_append_left (by simp; omega)]
          congr 1; simp; omega
        rw [h6, h2]; simp [-BitVec.getLsbD_eq_getElem, hi, h]
      · have h4 : ¬ (i - 8) / 8 < bs.length := by omega
        have h5 : ¬ i / 8 < (bs ++ [b]).length := by simp; omega
        rw [dif_neg h4, dif_neg h5]; simp

/-- Byte `j` of the value of a byte sequence of the full length is its byte `j`. -/
theorem byteAt_ofBytes (n : Nat) (bs : List Byte) (hn : n = 8 * bs.length) (j : Nat) (hj : j < bs.length) :
    byteAt (ofBytes n bs) j = bs[j] := by
  apply BitVec.eq_of_getLsbD_eq
  intro i hi
  rw [getLsbD_byteAt, getLsbD_ofBytes _ _ _ (by omega)]
  have h1 : (n - 8 - 8 * j + i) / 8 = bs.length - 1 - j := by omega
  have h2 : (n - 8 - 8 * j + i) % 8 = i := by omega
  have h3 : (n - 8 - 8 * j + i) / 8 < bs.length := by omega
  rw [dif_pos h3]
  have h4 : bs.length - 1 - (n - 8 - 8 * j + i) / 8 = j := by omega
  simp only [h4, h2, hi]; simp

/-- How many bytes a value has. -/
theorem bytesOf_length {n} (v : BitVec n) : (bytesOf v).length = n / 8 := by simp [bytesOf]

/-- Byte `j` of the byte sequence of a value. -/
theorem bytesOf_getElem {n} (v : BitVec n) (j : Nat) (h : j < (bytesOf v).length) : (bytesOf v)[j] = byteAt v j := by simp [bytesOf]

/-- Two values with the same bytes are equal. -/
theorem eq_of_byteAt {n : Nat} (hn : n % 8 = 0) (a b : BitVec n) (h : ∀ j, j < n / 8 → byteAt a j = byteAt b j) : a = b := by
  apply BitVec.eq_of_getLsbD_eq
  intro i hi
  have := congrArg (fun v => v.getLsbD (i % 8)) (h ((n - 1 - i)/8) (by omega))
  simp only [getLsbD_byteAt] at this
  have h1 : i % 8 < 8 := by omega
  have h2 : n - 8 - 8 * ((n - 1 - i)/8) + i % 8 = i := by omega
  simpa only [h1, h2, decide_true, Bool.true_and] using this

/-- A value is the value of its bytes. -/
theorem ofBytes_bytesOf {n : Nat} (hn : n % 8 = 0) (v : BitVec n) : ofBytes n (bytesOf v) = v := by
  apply eq_of_byteAt hn
  intro j hj
  rw [byteAt_ofBytes _ _ (by rw [bytesOf_length]; omega) _ (by rw [bytesOf_length]; omega), bytesOf_getElem]

/-- A right-filled sequence has the length asked for. -/
theorem padRight_length (n : Nat) (bs : List Byte) : (padRight n bs).length = n := by simp [padRight];

/-- Byte `j` of a right-filled block: the sequence's byte, or 0 past its end. -/
theorem byteAt_blockOfBytes (bs : List Byte) (j : Nat) (hj : j < 16) : byteAt (blockOfBytes bs) j = bs[j]?.getD 0 := by
  unfold blockOfBytes
  rw [byteAt_ofBytes _ _ (by rw [padRight_length]) _ (by rw [padRight_length]; exact hj)]
  simp only [padRight, List.getElem_take]
  by_cases h : j < bs.length
  · rw [List.getElem_append_left h]; simp [h]
  · rw [List.getElem_append_right (by omega), List.getElem_replicate]; simp [h]

/-- Two blocks with the same four words are equal. -/
theorem eq_of_wordAt (a b : Block) (h : ∀ j, j < 4 → wordAt a j = wordAt b j) : a = b := by
  apply BitVec.eq_of_getLsbD_eq
  intro i hi
  have := congrArg (fun v => v.getLsbD (i % 32)) (h ((127 - i)/32) (by omega))
  simp only [getLsbD_wordAt] at this
  have h1 : i % 32 < 32 := by omega
  have h2 : 128 - 32 - 32 * ((127 - i)/32) + i % 32 = i := by omega
  simpa only [h1, h2, decide_true, Bool.true_and] using this

/-- Byte `j` of a right-filled key store: the sequence's byte, or 0 past its end. -/
theorem byteAt_keyStoreOfBytes (bs : List Byte) (j : Nat) (hj : j < 32) :
    byteAt (keyStoreOfBytes bs) j = bs[j]?.getD 0 := by
  unfold keyStoreOfBytes
  rw [byteAt_ofBytes _ _ (by rw [padRight_length]) _ (by rw [padRight_length]; exact hj)]
  simp only [padRight, List.getElem_take]
  by_cases h : j < bs.length
  · rw [List.getElem_append_left h]; simp [h]
  · rw [List.getElem_append_right (by omega), List.getElem_replicate]; simp [h]

end Sys2Proof.Machine
end

