-- ==== Sys2Proof/Laws/State.lean ====
section
/-! SUPPORT. The effect of each named update of State on each field, one lemma a field, true by rfl. -/

namespace Sys2Proof.Machine

variable (s : State) (k : Key) (b : Block) (q : Seq) (e : CoreError) (r : BusResponse) (w v : Word) (i : Fin 8) (j : Fin 4)

/-! ### zeroize -/
@[simp] theorem zeroize_keyLen : (zeroize s).keyLen = s.keyLen := rfl
@[simp] theorem zeroize_ie : (zeroize s).ie = s.ie := rfl
@[simp] theorem zeroize_msgLen : (zeroize s).msgLen = s.msgLen := rfl
@[simp] theorem zeroize_keyB : (zeroize s).keyB = s.keyB := rfl
@[simp] theorem zeroize_dataB : (zeroize s).dataB = s.dataB := rfl
@[simp] theorem zeroize_phase : (zeroize s).phase = s.phase := rfl
@[simp] theorem zeroize_lastComplete : (zeroize s).lastComplete = s.lastComplete := rfl
@[simp] theorem zeroize_outValid : (zeroize s).outValid = s.outValid := rfl
@[simp] theorem zeroize_cmdDrop : (zeroize s).cmdDrop = s.cmdDrop := rfl
@[simp] theorem zeroize_ip : (zeroize s).ip = s.ip := rfl
@[simp] theorem zeroize_errCode : (zeroize s).errCode = s.errCode := rfl
@[simp] theorem zeroize_errInfo : (zeroize s).errInfo = s.errInfo := rfl
@[simp] theorem zeroize_nblk : (zeroize s).nblk = s.nblk := rfl
@[simp] theorem zeroize_blkIdx : (zeroize s).blkIdx = s.blkIdx := rfl
@[simp] theorem zeroize_outB : (zeroize s).outB = s.outB := rfl
@[simp] theorem zeroize_seq : (zeroize s).seq = s.seq := rfl
@[simp] theorem zeroize_keyS : (zeroize s).keyS = [] := rfl
@[simp] theorem zeroize_lenS : (zeroize s).lenS = 0 := rfl
@[simp] theorem zeroize_remS : (zeroize s).remS = 0 := rfl
@[simp] theorem zeroize_k1 : (zeroize s).k1 = 0 := rfl
@[simp] theorem zeroize_k2 : (zeroize s).k2 = 0 := rfl
@[simp] theorem zeroize_x : (zeroize s).x = 0 := rfl
@[simp] theorem zeroize_pending : (zeroize s).pending = s.pending := rfl
@[simp] theorem zeroize_base : (zeroize s).base = s.base := rfl
@[simp] theorem zeroize_cipherFaults : (zeroize s).cipherFaults = s.cipherFaults := rfl
@[simp] theorem zeroize_inputs : (zeroize s).inputs = s.inputs := rfl
@[simp] theorem zeroize_resp : (zeroize s).resp = s.resp := rfl

/-! ### issue -/
@[simp] theorem issue_keyLen : (issue k b q s).keyLen = s.keyLen := rfl
@[simp] theorem issue_ie : (issue k b q s).ie = s.ie := rfl
@[simp] theorem issue_msgLen : (issue k b q s).msgLen = s.msgLen := rfl
@[simp] theorem issue_keyB : (issue k b q s).keyB = s.keyB := rfl
@[simp] theorem issue_dataB : (issue k b q s).dataB = s.dataB := rfl
@[simp] theorem issue_phase : (issue k b q s).phase = s.phase := rfl
@[simp] theorem issue_lastComplete : (issue k b q s).lastComplete = s.lastComplete := rfl
@[simp] theorem issue_outValid : (issue k b q s).outValid = s.outValid := rfl
@[simp] theorem issue_cmdDrop : (issue k b q s).cmdDrop = s.cmdDrop := rfl
@[simp] theorem issue_ip : (issue k b q s).ip = s.ip := rfl
@[simp] theorem issue_errCode : (issue k b q s).errCode = s.errCode := rfl
@[simp] theorem issue_errInfo : (issue k b q s).errInfo = s.errInfo := rfl
@[simp] theorem issue_nblk : (issue k b q s).nblk = s.nblk := rfl
@[simp] theorem issue_blkIdx : (issue k b q s).blkIdx = s.blkIdx := rfl
@[simp] theorem issue_outB : (issue k b q s).outB = s.outB := rfl
@[simp] theorem issue_seq : (issue k b q s).seq = q := rfl
@[simp] theorem issue_keyS : (issue k b q s).keyS = s.keyS := rfl
@[simp] theorem issue_lenS : (issue k b q s).lenS = s.lenS := rfl
@[simp] theorem issue_remS : (issue k b q s).remS = s.remS := rfl
@[simp] theorem issue_k1 : (issue k b q s).k1 = s.k1 := rfl
@[simp] theorem issue_k2 : (issue k b q s).k2 = s.k2 := rfl
@[simp] theorem issue_x : (issue k b q s).x = s.x := rfl
@[simp] theorem issue_pending : (issue k b q s).pending = some ⟨k, b⟩ := rfl
@[simp] theorem issue_base : (issue k b q s).base = s.base := rfl
@[simp] theorem issue_cipherFaults : (issue k b q s).cipherFaults = s.cipherFaults := rfl
@[simp] theorem issue_inputs : (issue k b q s).inputs = s.inputs := rfl
@[simp] theorem issue_resp : (issue k b q s).resp = s.resp := rfl

/-! ### clearResults -/
@[simp] theorem clearResults_keyLen : (clearResults s).keyLen = s.keyLen := rfl
@[simp] theorem clearResults_ie : (clearResults s).ie = s.ie := rfl
@[simp] theorem clearResults_msgLen : (clearResults s).msgLen = s.msgLen := rfl
@[simp] theorem clearResults_keyB : (clearResults s).keyB = s.keyB := rfl
@[simp] theorem clearResults_dataB : (clearResults s).dataB = s.dataB := rfl
@[simp] theorem clearResults_phase : (clearResults s).phase = s.phase := rfl
@[simp] theorem clearResults_lastComplete : (clearResults s).lastComplete = false := rfl
@[simp] theorem clearResults_outValid : (clearResults s).outValid = false := rfl
@[simp] theorem clearResults_cmdDrop : (clearResults s).cmdDrop = s.cmdDrop := rfl
@[simp] theorem clearResults_ip : (clearResults s).ip = s.ip := rfl
@[simp] theorem clearResults_errCode : (clearResults s).errCode = s.errCode := rfl
@[simp] theorem clearResults_errInfo : (clearResults s).errInfo = s.errInfo := rfl
@[simp] theorem clearResults_nblk : (clearResults s).nblk = 0 := rfl
@[simp] theorem clearResults_blkIdx : (clearResults s).blkIdx = 0 := rfl
@[simp] theorem clearResults_outB : (clearResults s).outB = 0 := rfl
@[simp] theorem clearResults_seq : (clearResults s).seq = s.seq := rfl
@[simp] theorem clearResults_keyS : (clearResults s).keyS = s.keyS := rfl
@[simp] theorem clearResults_lenS : (clearResults s).lenS = s.lenS := rfl
@[simp] theorem clearResults_remS : (clearResults s).remS = s.remS := rfl
@[simp] theorem clearResults_k1 : (clearResults s).k1 = s.k1 := rfl
@[simp] theorem clearResults_k2 : (clearResults s).k2 = s.k2 := rfl
@[simp] theorem clearResults_x : (clearResults s).x = s.x := rfl
@[simp] theorem clearResults_pending : (clearResults s).pending = s.pending := rfl
@[simp] theorem clearResults_base : (clearResults s).base = s.base := rfl
@[simp] theorem clearResults_cipherFaults : (clearResults s).cipherFaults = s.cipherFaults := rfl
@[simp] theorem clearResults_inputs : (clearResults s).inputs = s.inputs := rfl
@[simp] theorem clearResults_resp : (clearResults s).resp = s.resp := rfl

/-! ### complete -/
@[simp] theorem complete_keyLen : (complete s).keyLen = s.keyLen := rfl
@[simp] theorem complete_ie : (complete s).ie = s.ie := rfl
@[simp] theorem complete_msgLen : (complete s).msgLen = s.msgLen := rfl
@[simp] theorem complete_keyB : (complete s).keyB = s.keyB := rfl
@[simp] theorem complete_dataB : (complete s).dataB = s.dataB := rfl
@[simp] theorem complete_phase : (complete s).phase = s.phase := rfl
@[simp] theorem complete_lastComplete : (complete s).lastComplete = s.lastComplete := rfl
@[simp] theorem complete_outValid : (complete s).outValid = s.outValid := rfl
@[simp] theorem complete_cmdDrop : (complete s).cmdDrop = s.cmdDrop := rfl
@[simp] theorem complete_ip : (complete s).ip = true := rfl
@[simp] theorem complete_errCode : (complete s).errCode = s.errCode := rfl
@[simp] theorem complete_errInfo : (complete s).errInfo = s.errInfo := rfl
@[simp] theorem complete_nblk : (complete s).nblk = s.nblk := rfl
@[simp] theorem complete_blkIdx : (complete s).blkIdx = s.blkIdx := rfl
@[simp] theorem complete_outB : (complete s).outB = s.outB := rfl
@[simp] theorem complete_seq : (complete s).seq = .waitNone := rfl
@[simp] theorem complete_keyS : (complete s).keyS = s.keyS := rfl
@[simp] theorem complete_lenS : (complete s).lenS = s.lenS := rfl
@[simp] theorem complete_remS : (complete s).remS = s.remS := rfl
@[simp] theorem complete_k1 : (complete s).k1 = s.k1 := rfl
@[simp] theorem complete_k2 : (complete s).k2 = s.k2 := rfl
@[simp] theorem complete_x : (complete s).x = s.x := rfl
@[simp] theorem complete_pending : (complete s).pending = s.pending := rfl
@[simp] theorem complete_base : (complete s).base = s.base := rfl
@[simp] theorem complete_cipherFaults : (complete s).cipherFaults = s.cipherFaults := rfl
@[simp] theorem complete_inputs : (complete s).inputs = s.inputs := rfl
@[simp] theorem complete_resp : (complete s).resp = s.resp := rfl

/-! ### drop -/
@[simp] theorem drop_keyLen : (drop s).keyLen = s.keyLen := rfl
@[simp] theorem drop_ie : (drop s).ie = s.ie := rfl
@[simp] theorem drop_msgLen : (drop s).msgLen = s.msgLen := rfl
@[simp] theorem drop_keyB : (drop s).keyB = s.keyB := rfl
@[simp] theorem drop_dataB : (drop s).dataB = s.dataB := rfl
@[simp] theorem drop_phase : (drop s).phase = s.phase := rfl
@[simp] theorem drop_lastComplete : (drop s).lastComplete = s.lastComplete := rfl
@[simp] theorem drop_outValid : (drop s).outValid = s.outValid := rfl
@[simp] theorem drop_cmdDrop : (drop s).cmdDrop = true := rfl
@[simp] theorem drop_ip : (drop s).ip = s.ip := rfl
@[simp] theorem drop_errCode : (drop s).errCode = s.errCode := rfl
@[simp] theorem drop_errInfo : (drop s).errInfo = s.errInfo := rfl
@[simp] theorem drop_nblk : (drop s).nblk = s.nblk := rfl
@[simp] theorem drop_blkIdx : (drop s).blkIdx = s.blkIdx := rfl
@[simp] theorem drop_outB : (drop s).outB = s.outB := rfl
@[simp] theorem drop_seq : (drop s).seq = s.seq := rfl
@[simp] theorem drop_keyS : (drop s).keyS = s.keyS := rfl
@[simp] theorem drop_lenS : (drop s).lenS = s.lenS := rfl
@[simp] theorem drop_remS : (drop s).remS = s.remS := rfl
@[simp] theorem drop_k1 : (drop s).k1 = s.k1 := rfl
@[simp] theorem drop_k2 : (drop s).k2 = s.k2 := rfl
@[simp] theorem drop_x : (drop s).x = s.x := rfl
@[simp] theorem drop_pending : (drop s).pending = s.pending := rfl
@[simp] theorem drop_base : (drop s).base = s.base := rfl
@[simp] theorem drop_cipherFaults : (drop s).cipherFaults = s.cipherFaults := rfl
@[simp] theorem drop_inputs : (drop s).inputs = s.inputs := rfl
@[simp] theorem drop_resp : (drop s).resp = s.resp := rfl

/-! ### raise -/
@[simp] theorem raise_keyLen : (raise e s).keyLen = s.keyLen := rfl
@[simp] theorem raise_ie : (raise e s).ie = s.ie := rfl
@[simp] theorem raise_msgLen : (raise e s).msgLen = s.msgLen := rfl
@[simp] theorem raise_keyB : (raise e s).keyB = s.keyB := rfl
@[simp] theorem raise_dataB : (raise e s).dataB = s.dataB := rfl
@[simp] theorem raise_phase : (raise e s).phase = .error := rfl
@[simp] theorem raise_lastComplete : (raise e s).lastComplete = s.lastComplete := rfl
@[simp] theorem raise_outValid : (raise e s).outValid = false := rfl
@[simp] theorem raise_cmdDrop : (raise e s).cmdDrop = s.cmdDrop := rfl
@[simp] theorem raise_ip : (raise e s).ip = true := rfl
@[simp] theorem raise_errCode : (raise e s).errCode = errorCode e := rfl
@[simp] theorem raise_errInfo : (raise e s).errInfo = errorInfo e := rfl
@[simp] theorem raise_nblk : (raise e s).nblk = s.nblk := rfl
@[simp] theorem raise_blkIdx : (raise e s).blkIdx = s.blkIdx := rfl
@[simp] theorem raise_outB : (raise e s).outB = 0 := rfl
@[simp] theorem raise_seq : (raise e s).seq = .waitNone := rfl
@[simp] theorem raise_keyS : (raise e s).keyS = [] := rfl
@[simp] theorem raise_lenS : (raise e s).lenS = 0 := rfl
@[simp] theorem raise_remS : (raise e s).remS = 0 := rfl
@[simp] theorem raise_k1 : (raise e s).k1 = 0 := rfl
@[simp] theorem raise_k2 : (raise e s).k2 = 0 := rfl
@[simp] theorem raise_x : (raise e s).x = 0 := rfl
@[simp] theorem raise_pending : (raise e s).pending = none := rfl
@[simp] theorem raise_base : (raise e s).base = s.base := rfl
@[simp] theorem raise_cipherFaults : (raise e s).cipherFaults = s.cipherFaults := rfl
@[simp] theorem raise_inputs : (raise e s).inputs = s.inputs := rfl
@[simp] theorem raise_resp : (raise e s).resp = s.resp := rfl

/-! ### respondBus -/
@[simp] theorem respondBus_keyLen : (respondBus r s).keyLen = s.keyLen := rfl
@[simp] theorem respondBus_ie : (respondBus r s).ie = s.ie := rfl
@[simp] theorem respondBus_msgLen : (respondBus r s).msgLen = s.msgLen := rfl
@[simp] theorem respondBus_keyB : (respondBus r s).keyB = s.keyB := rfl
@[simp] theorem respondBus_dataB : (respondBus r s).dataB = s.dataB := rfl
@[simp] theorem respondBus_phase : (respondBus r s).phase = s.phase := rfl
@[simp] theorem respondBus_lastComplete : (respondBus r s).lastComplete = s.lastComplete := rfl
@[simp] theorem respondBus_outValid : (respondBus r s).outValid = s.outValid := rfl
@[simp] theorem respondBus_cmdDrop : (respondBus r s).cmdDrop = s.cmdDrop := rfl
@[simp] theorem respondBus_ip : (respondBus r s).ip = s.ip := rfl
@[simp] theorem respondBus_errCode : (respondBus r s).errCode = s.errCode := rfl
@[simp] theorem respondBus_errInfo : (respondBus r s).errInfo = s.errInfo := rfl
@[simp] theorem respondBus_nblk : (respondBus r s).nblk = s.nblk := rfl
@[simp] theorem respondBus_blkIdx : (respondBus r s).blkIdx = s.blkIdx := rfl
@[simp] theorem respondBus_outB : (respondBus r s).outB = s.outB := rfl
@[simp] theorem respondBus_seq : (respondBus r s).seq = s.seq := rfl
@[simp] theorem respondBus_keyS : (respondBus r s).keyS = s.keyS := rfl
@[simp] theorem respondBus_lenS : (respondBus r s).lenS = s.lenS := rfl
@[simp] theorem respondBus_remS : (respondBus r s).remS = s.remS := rfl
@[simp] theorem respondBus_k1 : (respondBus r s).k1 = s.k1 := rfl
@[simp] theorem respondBus_k2 : (respondBus r s).k2 = s.k2 := rfl
@[simp] theorem respondBus_x : (respondBus r s).x = s.x := rfl
@[simp] theorem respondBus_pending : (respondBus r s).pending = s.pending := rfl
@[simp] theorem respondBus_base : (respondBus r s).base = s.base := rfl
@[simp] theorem respondBus_cipherFaults : (respondBus r s).cipherFaults = s.cipherFaults := rfl
@[simp] theorem respondBus_inputs : (respondBus r s).inputs = s.inputs := rfl
@[simp] theorem respondBus_resp : (respondBus r s).resp = r := rfl

/-! ### placeCommand -/
@[simp] theorem placeCommand_keyLen : (placeCommand w s).keyLen = s.keyLen := rfl
@[simp] theorem placeCommand_ie : (placeCommand w s).ie = s.ie := rfl
@[simp] theorem placeCommand_msgLen : (placeCommand w s).msgLen = s.msgLen := rfl
@[simp] theorem placeCommand_keyB : (placeCommand w s).keyB = s.keyB := rfl
@[simp] theorem placeCommand_dataB : (placeCommand w s).dataB = s.dataB := rfl
@[simp] theorem placeCommand_phase : (placeCommand w s).phase = s.phase := rfl
@[simp] theorem placeCommand_lastComplete : (placeCommand w s).lastComplete = s.lastComplete := rfl
@[simp] theorem placeCommand_outValid : (placeCommand w s).outValid = s.outValid := rfl
@[simp] theorem placeCommand_cmdDrop : (placeCommand w s).cmdDrop = s.cmdDrop := rfl
@[simp] theorem placeCommand_ip : (placeCommand w s).ip = s.ip := rfl
@[simp] theorem placeCommand_errCode : (placeCommand w s).errCode = s.errCode := rfl
@[simp] theorem placeCommand_errInfo : (placeCommand w s).errInfo = s.errInfo := rfl
@[simp] theorem placeCommand_nblk : (placeCommand w s).nblk = s.nblk := rfl
@[simp] theorem placeCommand_blkIdx : (placeCommand w s).blkIdx = s.blkIdx := rfl
@[simp] theorem placeCommand_outB : (placeCommand w s).outB = s.outB := rfl
@[simp] theorem placeCommand_seq : (placeCommand w s).seq = s.seq := rfl
@[simp] theorem placeCommand_keyS : (placeCommand w s).keyS = s.keyS := rfl
@[simp] theorem placeCommand_lenS : (placeCommand w s).lenS = s.lenS := rfl
@[simp] theorem placeCommand_remS : (placeCommand w s).remS = s.remS := rfl
@[simp] theorem placeCommand_k1 : (placeCommand w s).k1 = s.k1 := rfl
@[simp] theorem placeCommand_k2 : (placeCommand w s).k2 = s.k2 := rfl
@[simp] theorem placeCommand_x : (placeCommand w s).x = s.x := rfl
@[simp] theorem placeCommand_pending : (placeCommand w s).pending = s.pending := rfl
@[simp] theorem placeCommand_base : (placeCommand w s).base = s.base := rfl
@[simp] theorem placeCommand_cipherFaults : (placeCommand w s).cipherFaults = s.cipherFaults := rfl
@[simp] theorem placeCommand_inputs : (placeCommand w s).inputs = cmdWrite s.base w :: s.inputs := rfl
@[simp] theorem placeCommand_resp : (placeCommand w s).resp = s.resp := rfl

/-! ### clearAll -/
@[simp] theorem clearAll_keyLen : (clearAll s).keyLen = s.keyLen := rfl
@[simp] theorem clearAll_ie : (clearAll s).ie = s.ie := rfl
@[simp] theorem clearAll_msgLen : (clearAll s).msgLen = s.msgLen := rfl
@[simp] theorem clearAll_keyB : (clearAll s).keyB = s.keyB := rfl
@[simp] theorem clearAll_dataB : (clearAll s).dataB = s.dataB := rfl
@[simp] theorem clearAll_phase : (clearAll s).phase = .idle := rfl
@[simp] theorem clearAll_lastComplete : (clearAll s).lastComplete = false := rfl
@[simp] theorem clearAll_outValid : (clearAll s).outValid = false := rfl
@[simp] theorem clearAll_cmdDrop : (clearAll s).cmdDrop = false := rfl
@[simp] theorem clearAll_ip : (clearAll s).ip = false := rfl
@[simp] theorem clearAll_errCode : (clearAll s).errCode = .noError := rfl
@[simp] theorem clearAll_errInfo : (clearAll s).errInfo = 0 := rfl
@[simp] theorem clearAll_nblk : (clearAll s).nblk = 0 := rfl
@[simp] theorem clearAll_blkIdx : (clearAll s).blkIdx = 0 := rfl
@[simp] theorem clearAll_outB : (clearAll s).outB = 0 := rfl
@[simp] theorem clearAll_seq : (clearAll s).seq = s.seq := rfl
@[simp] theorem clearAll_keyS : (clearAll s).keyS = [] := rfl
@[simp] theorem clearAll_lenS : (clearAll s).lenS = 0 := rfl
@[simp] theorem clearAll_remS : (clearAll s).remS = 0 := rfl
@[simp] theorem clearAll_k1 : (clearAll s).k1 = 0 := rfl
@[simp] theorem clearAll_k2 : (clearAll s).k2 = 0 := rfl
@[simp] theorem clearAll_x : (clearAll s).x = 0 := rfl
@[simp] theorem clearAll_pending : (clearAll s).pending = s.pending := rfl
@[simp] theorem clearAll_base : (clearAll s).base = s.base := rfl
@[simp] theorem clearAll_cipherFaults : (clearAll s).cipherFaults = s.cipherFaults := rfl
@[simp] theorem clearAll_inputs : (clearAll s).inputs = s.inputs := rfl
@[simp] theorem clearAll_resp : (clearAll s).resp = s.resp := rfl

/-! ### writeCtrl -/
@[simp] theorem writeCtrl_keyLen : (writeCtrl v s).keyLen = v.extractLsb' 0 6 := rfl
@[simp] theorem writeCtrl_ie : (writeCtrl v s).ie = v.getLsbD 8 := rfl
@[simp] theorem writeCtrl_msgLen : (writeCtrl v s).msgLen = s.msgLen := rfl
@[simp] theorem writeCtrl_keyB : (writeCtrl v s).keyB = s.keyB := rfl
@[simp] theorem writeCtrl_dataB : (writeCtrl v s).dataB = s.dataB := rfl
@[simp] theorem writeCtrl_phase : (writeCtrl v s).phase = s.phase := rfl
@[simp] theorem writeCtrl_lastComplete : (writeCtrl v s).lastComplete = s.lastComplete := rfl
@[simp] theorem writeCtrl_outValid : (writeCtrl v s).outValid = s.outValid := rfl
@[simp] theorem writeCtrl_cmdDrop : (writeCtrl v s).cmdDrop = s.cmdDrop := rfl
@[simp] theorem writeCtrl_ip : (writeCtrl v s).ip = s.ip := rfl
@[simp] theorem writeCtrl_errCode : (writeCtrl v s).errCode = s.errCode := rfl
@[simp] theorem writeCtrl_errInfo : (writeCtrl v s).errInfo = s.errInfo := rfl
@[simp] theorem writeCtrl_nblk : (writeCtrl v s).nblk = s.nblk := rfl
@[simp] theorem writeCtrl_blkIdx : (writeCtrl v s).blkIdx = s.blkIdx := rfl
@[simp] theorem writeCtrl_outB : (writeCtrl v s).outB = s.outB := rfl
@[simp] theorem writeCtrl_seq : (writeCtrl v s).seq = s.seq := rfl
@[simp] theorem writeCtrl_keyS : (writeCtrl v s).keyS = s.keyS := rfl
@[simp] theorem writeCtrl_lenS : (writeCtrl v s).lenS = s.lenS := rfl
@[simp] theorem writeCtrl_remS : (writeCtrl v s).remS = s.remS := rfl
@[simp] theorem writeCtrl_k1 : (writeCtrl v s).k1 = s.k1 := rfl
@[simp] theorem writeCtrl_k2 : (writeCtrl v s).k2 = s.k2 := rfl
@[simp] theorem writeCtrl_x : (writeCtrl v s).x = s.x := rfl
@[simp] theorem writeCtrl_pending : (writeCtrl v s).pending = s.pending := rfl
@[simp] theorem writeCtrl_base : (writeCtrl v s).base = s.base := rfl
@[simp] theorem writeCtrl_cipherFaults : (writeCtrl v s).cipherFaults = s.cipherFaults := rfl
@[simp] theorem writeCtrl_inputs : (writeCtrl v s).inputs = s.inputs := rfl
@[simp] theorem writeCtrl_resp : (writeCtrl v s).resp = s.resp := rfl

/-! ### writeMsgLenLo -/
@[simp] theorem writeMsgLenLo_keyLen : (writeMsgLenLo v s).keyLen = s.keyLen := rfl
@[simp] theorem writeMsgLenLo_ie : (writeMsgLenLo v s).ie = s.ie := rfl
@[simp] theorem writeMsgLenLo_msgLen : (writeMsgLenLo v s).msgLen = highWord s.msgLen ++ v := rfl
@[simp] theorem writeMsgLenLo_keyB : (writeMsgLenLo v s).keyB = s.keyB := rfl
@[simp] theorem writeMsgLenLo_dataB : (writeMsgLenLo v s).dataB = s.dataB := rfl
@[simp] theorem writeMsgLenLo_phase : (writeMsgLenLo v s).phase = s.phase := rfl
@[simp] theorem writeMsgLenLo_lastComplete : (writeMsgLenLo v s).lastComplete = s.lastComplete := rfl
@[simp] theorem writeMsgLenLo_outValid : (writeMsgLenLo v s).outValid = s.outValid := rfl
@[simp] theorem writeMsgLenLo_cmdDrop : (writeMsgLenLo v s).cmdDrop = s.cmdDrop := rfl
@[simp] theorem writeMsgLenLo_ip : (writeMsgLenLo v s).ip = s.ip := rfl
@[simp] theorem writeMsgLenLo_errCode : (writeMsgLenLo v s).errCode = s.errCode := rfl
@[simp] theorem writeMsgLenLo_errInfo : (writeMsgLenLo v s).errInfo = s.errInfo := rfl
@[simp] theorem writeMsgLenLo_nblk : (writeMsgLenLo v s).nblk = s.nblk := rfl
@[simp] theorem writeMsgLenLo_blkIdx : (writeMsgLenLo v s).blkIdx = s.blkIdx := rfl
@[simp] theorem writeMsgLenLo_outB : (writeMsgLenLo v s).outB = s.outB := rfl
@[simp] theorem writeMsgLenLo_seq : (writeMsgLenLo v s).seq = s.seq := rfl
@[simp] theorem writeMsgLenLo_keyS : (writeMsgLenLo v s).keyS = s.keyS := rfl
@[simp] theorem writeMsgLenLo_lenS : (writeMsgLenLo v s).lenS = s.lenS := rfl
@[simp] theorem writeMsgLenLo_remS : (writeMsgLenLo v s).remS = s.remS := rfl
@[simp] theorem writeMsgLenLo_k1 : (writeMsgLenLo v s).k1 = s.k1 := rfl
@[simp] theorem writeMsgLenLo_k2 : (writeMsgLenLo v s).k2 = s.k2 := rfl
@[simp] theorem writeMsgLenLo_x : (writeMsgLenLo v s).x = s.x := rfl
@[simp] theorem writeMsgLenLo_pending : (writeMsgLenLo v s).pending = s.pending := rfl
@[simp] theorem writeMsgLenLo_base : (writeMsgLenLo v s).base = s.base := rfl
@[simp] theorem writeMsgLenLo_cipherFaults : (writeMsgLenLo v s).cipherFaults = s.cipherFaults := rfl
@[simp] theorem writeMsgLenLo_inputs : (writeMsgLenLo v s).inputs = s.inputs := rfl
@[simp] theorem writeMsgLenLo_resp : (writeMsgLenLo v s).resp = s.resp := rfl

/-! ### writeMsgLenHi -/
@[simp] theorem writeMsgLenHi_keyLen : (writeMsgLenHi v s).keyLen = s.keyLen := rfl
@[simp] theorem writeMsgLenHi_ie : (writeMsgLenHi v s).ie = s.ie := rfl
@[simp] theorem writeMsgLenHi_msgLen : (writeMsgLenHi v s).msgLen = v ++ lowWord s.msgLen := rfl
@[simp] theorem writeMsgLenHi_keyB : (writeMsgLenHi v s).keyB = s.keyB := rfl
@[simp] theorem writeMsgLenHi_dataB : (writeMsgLenHi v s).dataB = s.dataB := rfl
@[simp] theorem writeMsgLenHi_phase : (writeMsgLenHi v s).phase = s.phase := rfl
@[simp] theorem writeMsgLenHi_lastComplete : (writeMsgLenHi v s).lastComplete = s.lastComplete := rfl
@[simp] theorem writeMsgLenHi_outValid : (writeMsgLenHi v s).outValid = s.outValid := rfl
@[simp] theorem writeMsgLenHi_cmdDrop : (writeMsgLenHi v s).cmdDrop = s.cmdDrop := rfl
@[simp] theorem writeMsgLenHi_ip : (writeMsgLenHi v s).ip = s.ip := rfl
@[simp] theorem writeMsgLenHi_errCode : (writeMsgLenHi v s).errCode = s.errCode := rfl
@[simp] theorem writeMsgLenHi_errInfo : (writeMsgLenHi v s).errInfo = s.errInfo := rfl
@[simp] theorem writeMsgLenHi_nblk : (writeMsgLenHi v s).nblk = s.nblk := rfl
@[simp] theorem writeMsgLenHi_blkIdx : (writeMsgLenHi v s).blkIdx = s.blkIdx := rfl
@[simp] theorem writeMsgLenHi_outB : (writeMsgLenHi v s).outB = s.outB := rfl
@[simp] theorem writeMsgLenHi_seq : (writeMsgLenHi v s).seq = s.seq := rfl
@[simp] theorem writeMsgLenHi_keyS : (writeMsgLenHi v s).keyS = s.keyS := rfl
@[simp] theorem writeMsgLenHi_lenS : (writeMsgLenHi v s).lenS = s.lenS := rfl
@[simp] theorem writeMsgLenHi_remS : (writeMsgLenHi v s).remS = s.remS := rfl
@[simp] theorem writeMsgLenHi_k1 : (writeMsgLenHi v s).k1 = s.k1 := rfl
@[simp] theorem writeMsgLenHi_k2 : (writeMsgLenHi v s).k2 = s.k2 := rfl
@[simp] theorem writeMsgLenHi_x : (writeMsgLenHi v s).x = s.x := rfl
@[simp] theorem writeMsgLenHi_pending : (writeMsgLenHi v s).pending = s.pending := rfl
@[simp] theorem writeMsgLenHi_base : (writeMsgLenHi v s).base = s.base := rfl
@[simp] theorem writeMsgLenHi_cipherFaults : (writeMsgLenHi v s).cipherFaults = s.cipherFaults := rfl
@[simp] theorem writeMsgLenHi_inputs : (writeMsgLenHi v s).inputs = s.inputs := rfl
@[simp] theorem writeMsgLenHi_resp : (writeMsgLenHi v s).resp = s.resp := rfl

/-! ### writeKey -/
@[simp] theorem writeKey_keyLen : (writeKey i v s).keyLen = s.keyLen := rfl
@[simp] theorem writeKey_ie : (writeKey i v s).ie = s.ie := rfl
@[simp] theorem writeKey_msgLen : (writeKey i v s).msgLen = s.msgLen := rfl
@[simp] theorem writeKey_keyB : (writeKey i v s).keyB = putWord s.keyB i.val v := rfl
@[simp] theorem writeKey_dataB : (writeKey i v s).dataB = s.dataB := rfl
@[simp] theorem writeKey_phase : (writeKey i v s).phase = s.phase := rfl
@[simp] theorem writeKey_lastComplete : (writeKey i v s).lastComplete = s.lastComplete := rfl
@[simp] theorem writeKey_outValid : (writeKey i v s).outValid = s.outValid := rfl
@[simp] theorem writeKey_cmdDrop : (writeKey i v s).cmdDrop = s.cmdDrop := rfl
@[simp] theorem writeKey_ip : (writeKey i v s).ip = s.ip := rfl
@[simp] theorem writeKey_errCode : (writeKey i v s).errCode = s.errCode := rfl
@[simp] theorem writeKey_errInfo : (writeKey i v s).errInfo = s.errInfo := rfl
@[simp] theorem writeKey_nblk : (writeKey i v s).nblk = s.nblk := rfl
@[simp] theorem writeKey_blkIdx : (writeKey i v s).blkIdx = s.blkIdx := rfl
@[simp] theorem writeKey_outB : (writeKey i v s).outB = s.outB := rfl
@[simp] theorem writeKey_seq : (writeKey i v s).seq = s.seq := rfl
@[simp] theorem writeKey_keyS : (writeKey i v s).keyS = s.keyS := rfl
@[simp] theorem writeKey_lenS : (writeKey i v s).lenS = s.lenS := rfl
@[simp] theorem writeKey_remS : (writeKey i v s).remS = s.remS := rfl
@[simp] theorem writeKey_k1 : (writeKey i v s).k1 = s.k1 := rfl
@[simp] theorem writeKey_k2 : (writeKey i v s).k2 = s.k2 := rfl
@[simp] theorem writeKey_x : (writeKey i v s).x = s.x := rfl
@[simp] theorem writeKey_pending : (writeKey i v s).pending = s.pending := rfl
@[simp] theorem writeKey_base : (writeKey i v s).base = s.base := rfl
@[simp] theorem writeKey_cipherFaults : (writeKey i v s).cipherFaults = s.cipherFaults := rfl
@[simp] theorem writeKey_inputs : (writeKey i v s).inputs = s.inputs := rfl
@[simp] theorem writeKey_resp : (writeKey i v s).resp = s.resp := rfl

/-! ### writeData -/
@[simp] theorem writeData_keyLen : (writeData j v s).keyLen = s.keyLen := rfl
@[simp] theorem writeData_ie : (writeData j v s).ie = s.ie := rfl
@[simp] theorem writeData_msgLen : (writeData j v s).msgLen = s.msgLen := rfl
@[simp] theorem writeData_keyB : (writeData j v s).keyB = s.keyB := rfl
@[simp] theorem writeData_dataB : (writeData j v s).dataB = putWord s.dataB j.val v := rfl
@[simp] theorem writeData_phase : (writeData j v s).phase = s.phase := rfl
@[simp] theorem writeData_lastComplete : (writeData j v s).lastComplete = s.lastComplete := rfl
@[simp] theorem writeData_outValid : (writeData j v s).outValid = s.outValid := rfl
@[simp] theorem writeData_cmdDrop : (writeData j v s).cmdDrop = s.cmdDrop := rfl
@[simp] theorem writeData_ip : (writeData j v s).ip = s.ip := rfl
@[simp] theorem writeData_errCode : (writeData j v s).errCode = s.errCode := rfl
@[simp] theorem writeData_errInfo : (writeData j v s).errInfo = s.errInfo := rfl
@[simp] theorem writeData_nblk : (writeData j v s).nblk = s.nblk := rfl
@[simp] theorem writeData_blkIdx : (writeData j v s).blkIdx = s.blkIdx := rfl
@[simp] theorem writeData_outB : (writeData j v s).outB = s.outB := rfl
@[simp] theorem writeData_seq : (writeData j v s).seq = s.seq := rfl
@[simp] theorem writeData_keyS : (writeData j v s).keyS = s.keyS := rfl
@[simp] theorem writeData_lenS : (writeData j v s).lenS = s.lenS := rfl
@[simp] theorem writeData_remS : (writeData j v s).remS = s.remS := rfl
@[simp] theorem writeData_k1 : (writeData j v s).k1 = s.k1 := rfl
@[simp] theorem writeData_k2 : (writeData j v s).k2 = s.k2 := rfl
@[simp] theorem writeData_x : (writeData j v s).x = s.x := rfl
@[simp] theorem writeData_pending : (writeData j v s).pending = s.pending := rfl
@[simp] theorem writeData_base : (writeData j v s).base = s.base := rfl
@[simp] theorem writeData_cipherFaults : (writeData j v s).cipherFaults = s.cipherFaults := rfl
@[simp] theorem writeData_inputs : (writeData j v s).inputs = s.inputs := rfl
@[simp] theorem writeData_resp : (writeData j v s).resp = s.resp := rfl

/-! ### writeStatus -/
@[simp] theorem writeStatus_keyLen : (writeStatus v s).keyLen = s.keyLen := rfl
@[simp] theorem writeStatus_ie : (writeStatus v s).ie = s.ie := rfl
@[simp] theorem writeStatus_msgLen : (writeStatus v s).msgLen = s.msgLen := rfl
@[simp] theorem writeStatus_keyB : (writeStatus v s).keyB = s.keyB := rfl
@[simp] theorem writeStatus_dataB : (writeStatus v s).dataB = s.dataB := rfl
@[simp] theorem writeStatus_phase : (writeStatus v s).phase = s.phase := rfl
@[simp] theorem writeStatus_lastComplete : (writeStatus v s).lastComplete = s.lastComplete := rfl
@[simp] theorem writeStatus_outValid : (writeStatus v s).outValid = s.outValid := rfl
@[simp] theorem writeStatus_cmdDrop : (writeStatus v s).cmdDrop = (s.cmdDrop && !v.getLsbD 5) := rfl
@[simp] theorem writeStatus_ip : (writeStatus v s).ip = (s.ip && !v.getLsbD 6) := rfl
@[simp] theorem writeStatus_errCode : (writeStatus v s).errCode = s.errCode := rfl
@[simp] theorem writeStatus_errInfo : (writeStatus v s).errInfo = s.errInfo := rfl
@[simp] theorem writeStatus_nblk : (writeStatus v s).nblk = s.nblk := rfl
@[simp] theorem writeStatus_blkIdx : (writeStatus v s).blkIdx = s.blkIdx := rfl
@[simp] theorem writeStatus_outB : (writeStatus v s).outB = s.outB := rfl
@[simp] theorem writeStatus_seq : (writeStatus v s).seq = s.seq := rfl
@[simp] theorem writeStatus_keyS : (writeStatus v s).keyS = s.keyS := rfl
@[simp] theorem writeStatus_lenS : (writeStatus v s).lenS = s.lenS := rfl
@[simp] theorem writeStatus_remS : (writeStatus v s).remS = s.remS := rfl
@[simp] theorem writeStatus_k1 : (writeStatus v s).k1 = s.k1 := rfl
@[simp] theorem writeStatus_k2 : (writeStatus v s).k2 = s.k2 := rfl
@[simp] theorem writeStatus_x : (writeStatus v s).x = s.x := rfl
@[simp] theorem writeStatus_pending : (writeStatus v s).pending = s.pending := rfl
@[simp] theorem writeStatus_base : (writeStatus v s).base = s.base := rfl
@[simp] theorem writeStatus_cipherFaults : (writeStatus v s).cipherFaults = s.cipherFaults := rfl
@[simp] theorem writeStatus_inputs : (writeStatus v s).inputs = s.inputs := rfl
@[simp] theorem writeStatus_resp : (writeStatus v s).resp = s.resp := rfl

end Sys2Proof.Machine
end

