-- ==== Sys2Proof/Laws/Ops.lean ====
section
/-! SUPPORT. What each shared operation can do, said once: acceptance, commands, bus accesses, cipher responses, steps. -/

namespace Sys2Proof.Machine

/-! ### Acceptance -/

/-- `accept` while BUSY is a drop (R191). -/
theorem accept_busy {i : Instr} {f : State → State} {s : State} (h : s.seq ≠ .waitNone) :
    accept i f s = drop s := by
  simp [accept, busy, h]

/-- `accept` in ERROR of anything but CLEAR is a drop (R191). -/
theorem accept_error {i : Instr} {f : State → State} {s : State} (h : s.phase = .error) (hi : i ≠ .clear) :
    accept i f s = drop s := by
  simp [accept, h, hi]

/-- `accept` of a legal command runs its execute step (R190). -/
theorem accept_legal {i : Instr} {f : State → State} {s : State} (hb : s.seq = .waitNone)
    (he : s.phase = .error → i = .clear) (hl : legalIn i s.phase = true) : accept i f s = f s := by
  have hd : ¬ (s.phase = .error ∧ i ≠ .clear) := fun ⟨a, b⟩ => b (he a)
  simp [accept, busy, hb, hd, hl]

/-- Everything `accept` can do. -/
theorem accept_cases (i : Instr) (f : State → State) (s : State) :
    (accept i f s = drop s ∧ (s.seq ≠ .waitNone ∨ s.phase = .error ∧ i ≠ .clear)) ∨
    (accept i f s = f s ∧ s.seq = .waitNone ∧ (s.phase = .error → i = .clear) ∧ legalIn i s.phase = true) ∨
    (accept i f s = raise (.sequenceError (opcode i) s.phase) s ∧ s.seq = .waitNone ∧
      legalIn i s.phase = false ∧ s.phase ≠ .error) := by
  unfold accept
  by_cases hb : s.seq = .waitNone <;> by_cases he : s.phase = .error <;> by_cases hi : i = .clear <;>
    cases hl : legalIn i s.phase <;> simp_all [busy, legalIn]

/-- Everything `rejectWord` can do (R191, R192). -/
theorem rejectWord_cases (w : Word) (s : State) :
    (rejectWord w s = drop s ∧ (s.seq ≠ .waitNone ∨ s.phase = .error)) ∨
    (rejectWord w s = raise (.illegalCommand w) s ∧ s.seq = .waitNone ∧ s.phase ≠ .error) := by
  unfold rejectWord
  by_cases hb : s.seq = .waitNone <;> by_cases he : s.phase = .error <;> simp_all [busy]

/-! ### Commands -/

/-- The state every command ends in; none of them stops. -/
def commandResult (i : Instr) (s : State) : State :=
  match i with
  | .nop => s
  | .init => accept .init initBody s
  | .push => accept .push pushBody s
  | .double => accept .double doubleBody s
  | .clear => accept .clear clearAll s

/-- Every command answers a next state. -/
theorem exec_eq (i : Instr) (s : State) : exec i s = .next (commandResult i s) := by
  cases i <;> rfl

/-- Every command word answers a next state. -/
theorem acceptWord_eq (w : Word) (s : State) :
    acceptWord w s = .next (match decode w with
      | .command i => commandResult i s
      | .illegal _ => rejectWord w s) := by
  unfold acceptWord
  cases decode w with
  | command i => exact exec_eq i s
  | illegal _ => rfl

/-- INIT's execute step, by whether its key check passes (R197). -/
theorem initBody_cases (s : State) :
    (keyLenLegal s.keyLen = true ∧
      initBody s = openMessage (keyOperand s) s.msgLen (zeroize (clearResults s))) ∨
    (keyLenLegal s.keyLen = false ∧
      initBody s = raise (.invalidKeyLength s.keyLen) (zeroize (clearResults s))) := by
  cases h : keyLenLegal s.keyLen <;> simp [initBody, h]

/-- PUSH's execute step, by whether the block is the last (R200). -/
theorem pushBody_cases (s : State) :
    (s.blkIdx.toNat + 1 < s.nblk.toNat ∧ pushBody s = issue s.keyS (s.x ^^^ s.dataB) .waitChain s) ∨
    (¬ s.blkIdx.toNat + 1 < s.nblk.toNat ∧ pushBody s = issue s.keyS
      (combineInput s.x (lastBlock s.dataB s.lastComplete s.remS) s.lastComplete s.k1 s.k2) .waitTag s) := by
  by_cases h : s.blkIdx.toNat + 1 < s.nblk.toNat <;> simp [pushBody, moreBlocksFollow, chainInput, h]

/-- The key lengths the check passes (R197). -/
theorem keyLenLegal_iff (kl : BitVec 6) : keyLenLegal kl = true ↔ kl = 16 ∨ kl = 24 ∨ kl = 32 := by
  simp [keyLenLegal, or_assoc]

/-- Decoding a command's word gives the command back. -/
theorem decode_encode (i : Instr) : decode (encode i) = .command i := by
  cases i <;> decide

/-! ### The bus -/

/-- The register at a register's offset is that register (R20). -/
@[simp] theorem regAt_regOffset (r : Reg) : regAt (regOffset r) = some r := by
  cases r with
  | key j => revert j; decide
  | data j => revert j; decide
  | out j => revert j; decide
  | _ => decide

/-- Every register's offset is aligned and in the window (R20). -/
theorem regOffset_bounds (r : Reg) : regOffset r % 4 = 0 ∧ regOffset r < 0x80 := by
  cases r with
  | key j => revert j; decide
  | data j => revert j; decide
  | out j => revert j; decide
  | _ => decide

/-- A register's offset comes only from the word index of that register (R20, R71). -/
theorem offset_of_regAt {off : Nat} {r : Reg} (ha : off % 4 = 0) (hw : off < 0x80) (h : regAt off = some r) :
    off = regOffset r := by
  have key : ∀ n : Fin 32, ∀ r, regAt (4 * n.val) = some r → 4 * n.val = regOffset r := by
    intro n r h
    fin_cases n <;> simp [regAt] at h <;> subst h <;> rfl
  have h4 : off = 4 * (off / 4) := by omega
  rw [h4] at h ⊢
  exact key ⟨off / 4, by omega⟩ r h

/-- A 32-bit write to a register's address writes that register, with a normal response. -/
theorem busStep_write_reg (r : Reg) (v : Word) (s : State) :
    busStep (.write (s.base + regOffset r) v) s = writeReg r v (respondBus .writeDone s) := by
  have hb := regOffset_bounds r
  have h1 : inWindow s.base (s.base + regOffset r) = true := by
    simp [inWindow, Config.windowBytes]; omega
  simp [busStep, h1, offsetOf, aligned, hb.1, writeWindow]

/-- A 32-bit read of a register's address returns that register. -/
theorem busStep_read_reg (r : Reg) (s : State) :
    busStep (.read (s.base + regOffset r)) s = .next (respondBus (.readData (readReg r s)) s) := by
  have hb := regOffset_bounds r
  have h1 : inWindow s.base (s.base + regOffset r) = true := by
    simp [inWindow, Config.windowBytes]; omega
  simp [busStep, h1, offsetOf, aligned, hb.1, readWindow]

/-- What a write of a register other than CMD leaves, as a state. -/
def registerWritten (r : Reg) (v : Word) (s : State) : State :=
  match r with
  | .ctrl => writeCtrl v s
  | .status => writeStatus v s
  | .msgLenLo => writeMsgLenLo v s
  | .msgLenHi => writeMsgLenHi v s
  | .key j => writeKey j v s
  | .data j => writeData j v s
  | .cmd | .id | .errInfo | .nblkLo | .nblkHi | .blkIdxLo | .blkIdxHi | .out _ => s

/-- A write to a register other than CMD answers a next state. -/
theorem writeReg_eq {r : Reg} (h : r ≠ .cmd) (v : Word) (s : State) :
    writeReg r v s = .next (registerWritten r v s) := by
  cases r <;> first | rfl | exact absurd rfl h

/-- A write to a register other than CMD leaves everything the core itself writes, but for the two STATUS bits, and
every parameter as it was (R77, R78). -/
theorem registerWritten_frame (r : Reg) (v : Word) (s : State) :
    let t := registerWritten r v s
    t.phase = s.phase ∧ t.seq = s.seq ∧ t.pending = s.pending ∧ t.errCode = s.errCode ∧ t.errInfo = s.errInfo ∧
      t.keyS = s.keyS ∧ t.lenS = s.lenS ∧ t.remS = s.remS ∧ t.k1 = s.k1 ∧ t.k2 = s.k2 ∧ t.x = s.x ∧
      t.nblk = s.nblk ∧ t.blkIdx = s.blkIdx ∧ t.lastComplete = s.lastComplete ∧ t.outB = s.outB ∧
      t.outValid = s.outValid ∧ t.base = s.base ∧ t.cipherFaults = s.cipherFaults ∧ t.inputs = s.inputs ∧
      t.resp = s.resp := by
  cases r <;> simp [registerWritten]

/-- Everything a bus access can do: it leaves the core alone, or writes a register other than CMD at its address, or
delivers a command word at CMAC_BASE + 0x0C. -/
theorem busStep_cases (a : BusAccess) (s : State) :
    (∃ r, busStep a s = .next (respondBus r s)) ∨
    (∃ r v, r ≠ .cmd ∧ a = .write (s.base + regOffset r) v ∧
      busStep a s = .next (registerWritten r v (respondBus .writeDone s))) ∨
    (∃ w, a = .write (s.base + regOffset .cmd) w ∧ busStep a s = acceptWord w (respondBus .writeDone s)) := by
  cases a with
  | read addr =>
    left
    dsimp only [busStep]
    split
    · exact ⟨_, rfl⟩
    · split <;> exact ⟨_, rfl⟩
  | readOther addr wd => left; dsimp only [busStep]; split <;> exact ⟨_, rfl⟩
  | writeOther addr wd => left; dsimp only [busStep]; split <;> exact ⟨_, rfl⟩
  | write addr v =>
    by_cases hw : inWindow s.base addr = true
    · by_cases ha : aligned (offsetOf s.base addr) = true
      · cases hr : regAt (offsetOf s.base addr) with
        | none => left; exact ⟨_, by simp [busStep, hw, ha, writeWindow, hr]; rfl⟩
        | some r =>
          right
          have hin : s.base ≤ addr ∧ addr < s.base + 0x80 := of_decide_eq_true hw
          have hal : (addr - s.base) % 4 = 0 := by simpa [aligned, offsetOf] using ha
          have hoff : addr - s.base = regOffset r := offset_of_regAt hal (by omega) hr
          have haddr : addr = s.base + regOffset r := by omega
          subst haddr
          by_cases hc : r = .cmd
          · right; subst hc; exact ⟨v, rfl, busStep_write_reg .cmd v s⟩
          · left; exact ⟨r, v, hc, rfl, (busStep_write_reg r v s).trans (writeReg_eq hc v _)⟩
      · left; exact ⟨_, by simp [busStep, hw, ha]; rfl⟩
    · left; exact ⟨_, by simp [busStep, hw]; rfl⟩

/-- No bus access stops the machine. -/
theorem busStep_next (a : BusAccess) (s : State) : ∃ t, busStep a s = .next t := by
  rcases busStep_cases a s with ⟨r, h⟩ | ⟨r, v, -, -, h⟩ | ⟨w, -, h⟩
  · exact ⟨_, h⟩
  · exact ⟨_, h⟩
  · exact ⟨_, h.trans (acceptWord_eq _ _)⟩

/-! ### The cipher agent -/

/-- What an Ok response with block `c` leaves, for each awaited response (R203 to R205). -/
def responseResult (c : Block) (s : State) : State :=
  match s.seq with
  | .waitL => finishSubkeys c { s with pending := none }
  | .waitChain => finishChain c { s with pending := none }
  | .waitTag => finishTag c { s with pending := none }
  | .waitNone => s

/-- Everything a cipher step can do when it gives a next state (R51). -/
theorem cipherStep_cases {r : CipherAnswer} {s t : State} (h : cipherStep r s = .next t) :
    (∃ req, s.pending = some req ∧ r = .ok ∧ s.seq ≠ .waitNone ∧
      t = responseResult (Config.encryptBlock req.key req.block) s) ∨
    (∃ req c, s.pending = some req ∧ r = .err c ∧ s.cipherFaults = true ∧
      t = raise (.cipherFault c) { s with pending := none }) := by
  unfold cipherStep at h
  cases hp : s.pending with
  | none => simp [hp] at h
  | some req =>
    simp only [hp] at h
    cases r with
    | ok =>
      left
      refine ⟨req, rfl, rfl, ?_⟩
      cases hq : s.seq <;> simp_all [respondOk, responseResult]
    | err c =>
      right
      refine ⟨req, c, rfl, rfl, ?_⟩
      cases hf : s.cipherFaults <;> simp_all [respondErr]

/-! ### Steps -/

/-- A step with a scheduled event is that event. -/
theorem step_cons {s : State} {e : Event} {rest : List Event} (h : s.inputs = e :: rest) :
    step s = runEvent e { s with inputs := rest } := by
  simp [step, agentStep, h]

/-- Everything a step can do when it gives a next state. -/
theorem step_cases {s t : State} (h : step s = .next t) :
    (s.inputs = [] ∧ t = s) ∨
    (∃ a rest, s.inputs = .host a :: rest ∧ busStep a { s with inputs := rest } = .next t) ∨
    (∃ r rest, s.inputs = .cipher r :: rest ∧ cipherStep r { s with inputs := rest } = .next t) ∨
    (∃ rest, s.inputs = .reset :: rest ∧ t = hardwareReset { s with inputs := rest }) := by
  cases hi : s.inputs with
  | nil => left; simp [step, agentStep, hi] at h; exact ⟨rfl, h.symm⟩
  | cons e rest =>
    rw [step_cons hi] at h
    cases e with
    | host a => exact .inr (.inl ⟨a, rest, rfl, h⟩)
    | cipher r => exact .inr (.inr (.inl ⟨r, rest, rfl, h⟩))
    | reset =>
      refine .inr (.inr (.inr ⟨rest, rfl, ?_⟩))
      simp only [runEvent, Host.Outcome.next.injEq] at h
      exact h.symm

end Sys2Proof.Machine
end

