-- ==== Sys2Proof/Laws/Run.lean ====
section
/-! SUPPORT. Running the machine several steps: one step more, two runs after one another, and a property every step
keeps; then the steps of the assembler forms, which a host program is run through. -/

namespace Sys2Proof.Machine

/-- No step at all. -/
@[simp] theorem run_zero (s : State) : core.run 0 s = .next s := rfl

/-- One step, then the rest of the run. -/
theorem run_succ {s t : State} (n : Nat) (h : step s = .next t) : core.run (n + 1) s = core.run n t := by
  have h' : core.step s = .next t := h
  simp only [Host.Core.run, h']

/-- A run that gives a next state begins with a step that does. -/
theorem run_succ_inv {s u : State} {n : Nat} (h : core.run (n + 1) s = .next u) :
    ∃ t, step s = .next t ∧ core.run n t = .next u := by
  have h' := h
  simp only [Host.Core.run] at h'
  split at h'
  · rename_i t ht; exact ⟨t, ht, h'⟩
  · cases h'
  · cases h'

/-- Two runs after one another. -/
theorem run_add {s t : State} (m n : Nat) (h : core.run m s = .next t) : core.run (m + n) s = core.run n t := by
  induction m generalizing s with
  | zero =>
    have h' : Host.Outcome.next s = Host.Outcome.next t := h
    injection h' with h'
    subst h'; rw [Nat.zero_add]
  | succ m ih =>
    obtain ⟨u, hu, hr⟩ := run_succ_inv h
    rw [Nat.succ_add, run_succ _ hu]
    exact ih hr

/-- What every step keeps, every run keeps. -/
theorem run_keeps {P : State → Prop} (hP : ∀ s t, P s → step s = .next t → P t) {n : Nat} {s t : State}
    (hs : P s) (h : core.run n s = .next t) : P t := by
  induction n generalizing s with
  | zero =>
    have h' : Host.Outcome.next s = Host.Outcome.next t := h
    injection h' with h'
    exact h' ▸ hs
  | succ n ih =>
    obtain ⟨u, hu, hr⟩ := run_succ_inv h
    exact ih (hP _ _ hs hu) hr

/-- Writing the four words of a block one after another leaves that block. -/
theorem putWord_four (d b : Block) : putWord (putWord (putWord (putWord d 0 (wordAt b 0)) 1 (wordAt b 1)) 2 (wordAt b 2)) 3 (wordAt b 3) = b := by
  apply eq_of_wordAt
  intro j hj
  have h0 : 32 * 0 + 32 ≤ 128 := by omega
  have h1 : 32 * 1 + 32 ≤ 128 := by omega
  have h2 : 32 * 2 + 32 ≤ 128 := by omega
  have h3 : 32 * 3 + 32 ≤ 128 := by omega
  have hj' : 32 * j + 32 ≤ 128 := by omega
  rw [wordAt_putWord _ _ _ _ h3 hj', wordAt_putWord _ _ _ _ h2 hj', wordAt_putWord _ _ _ _ h1 hj', wordAt_putWord _ _ _ _ h0 hj']
  interval_cases j <;> rfl

/-- The step of a host write to a register other than CMD. -/
theorem step_asmWr {s : State} {r : Reg} {v : Word} {rest : List Event} (hr : r ≠ .cmd) (h : s.inputs = asmWr s.base r v :: rest) :
    step s = .next (registerWritten r v { s with inputs := rest, resp := .writeDone }) := by
  rw [step_cons h]
  exact (busStep_write_reg r v { s with inputs := rest }).trans (writeReg_eq hr v _)

/-- The step of a host write of a command to CMD. -/
theorem step_asmCmd {s : State} {i : Instr} {rest : List Event} (h : s.inputs = asmCmd s.base i :: rest) :
    step s = .next (commandResult i { s with inputs := rest, resp := .writeDone }) := by
  rw [step_cons h]
  refine (busStep_write_reg .cmd (encode i) { s with inputs := rest }).trans ?_
  show acceptWord _ _ = _
  rw [acceptWord_eq, decode_encode]; rfl

/-- The step of a host read of a register: the host receives its value, the core stays. -/
theorem step_asmRd {s : State} {r : Reg} {rest : List Event} (h : s.inputs = asmRd s.base r :: rest) :
    step s = .next { s with inputs := rest, resp := .readData (readReg r s) } := by
  rw [step_cons h]
  exact busStep_read_reg r { s with inputs := rest }

/-- A WAIT of `n` STATUS reads changes the schedule and the response only. -/
theorem run_asmWait (n : Nat) : ∀ {s : State} {rest : List Event}, s.inputs = asmWait s.base n ++ rest →
    ∃ q, core.run n s = .next { s with inputs := rest, resp := q } := by
  induction n with
  | zero => intro s rest h; refine ⟨s.resp, ?_⟩; simp [asmWait] at h; rw [run_zero, ← h]
  | succ n ih =>
    intro s rest h
    have h' : s.inputs = asmRd s.base .status :: (asmWait s.base n ++ rest) := by rw [h]; rfl
    have hq := step_asmRd h'
    rw [run_succ n hq]
    obtain ⟨q', hq'⟩ := ih (s := { s with inputs := asmWait s.base n ++ rest, resp := .readData (readReg .status s) }) (rest := rest) rfl
    exact ⟨q', hq'⟩

/-- LDDATA of a whole block. -/
theorem run_asmLddata {s : State} {b : Block} {rest : List Event} (h : s.inputs = asmLddata s.base b ++ rest) :
    core.run 4 s = .next { s with dataB := b, inputs := rest, resp := .writeDone } := by
  have e1 := step_asmWr (r := .data 0) (by decide) h
  rw [run_succ 3 e1]
  rw [run_succ 2 (step_asmWr (r := .data 1) (v := wordAt b 1) (by decide) rfl)]
  rw [run_succ 1 (step_asmWr (r := .data 2) (v := wordAt b 2) (by decide) rfl)]
  rw [run_succ 0 (step_asmWr (r := .data 3) (v := wordAt b 3) (by decide) rfl)]
  rw [run_zero]
  have := putWord_four s.dataB b
  simp only [registerWritten, writeData, Fin.isValue]
  rw [show ((3 : Fin 4).val) = 3 from rfl, show ((2 : Fin 4).val) = 2 from rfl, show ((1 : Fin 4).val) = 1 from rfl, show ((0 : Fin 4).val) = 0 from rfl, this]
  rfl

/-- One Ok answer with STATUS reads around it: the state `f` makes of the answer, then the reads. -/
theorem run_awaitAnswer {s : State} {req : CipherRequest} {a b : Nat} {rest : List Event} {f : Block → State → State}
    (hp : s.pending = some req) (h : s.inputs = awaitAnswer s.base a b ++ rest)
    (hf : ∀ (c : Block) (i : List Event) (q : BusResponse), respondOk c { s with inputs := i, resp := q } = .next (f c { s with inputs := i, resp := q }))
    (hfi : ∀ c (t : State), (f c t).inputs = t.inputs ∧ (f c t).base = t.base)  :
    ∃ q q', core.run (a + 1 + b) s = .next { f (Config.encryptBlock req.key req.block) { s with inputs := asmWait s.base b ++ rest, resp := q } with inputs := rest, resp := q' } := by
  have h1 : s.inputs = asmWait s.base a ++ (.cipher .ok :: (asmWait s.base b ++ rest)) := by
    rw [h]; simp [awaitAnswer]
  obtain ⟨q, hq⟩ := run_asmWait a h1
  rw [Nat.add_assoc, run_add _ _ hq]
  have h3 : ∀ u : State, u.pending = some req → cipherStep .ok u = respondOk (Config.encryptBlock req.key req.block) u := by
    intro u hu; simp only [cipherStep, hu]
  have h2 := (step_cons (s := { s with inputs := .cipher .ok :: (asmWait s.base b ++ rest), resp := q }) rfl).trans
    ((h3 { s with inputs := asmWait s.base b ++ rest, resp := q } hp).trans (hf _ _ _))
  rw [Nat.add_comm 1 b, run_succ _ h2]
  obtain ⟨q', hq'⟩ := run_asmWait b (s := f (Config.encryptBlock req.key req.block) { s with inputs := asmWait s.base b ++ rest, resp := q }) (rest := rest) (by rw [(hfi _ _).1, (hfi _ _).2])
  exact ⟨q, q', hq'⟩

end Sys2Proof.Machine
end

