-- ==== Sys2Proof/Laws/Fairness.lean ====
section
/-! SUPPORT. Weak fairness of the cipher agent along a run (spec 70_reset_and_hazards.md R291): where a run rests, one step
forward, and one step back. -/

namespace Sys2Proof.Machine

/-- With nothing scheduled every run stays where it is (R264). -/
theorem run_rest {s : State} (h : s.inputs = []) (n : Nat) : core.run n s = .next s := by
  have hs : step s = .next s := by simp [step, agentStep, h]
  induction n with
  | zero => rfl
  | succ n ih => rw [run_succ n hs, ih]

/-- A resting state is fair exactly when no request is pending. -/
theorem weaklyFair_rest {s : State} (h : s.inputs = []) : WeaklyFair s ↔ s.pending = none := by
  constructor
  · intro hf
    obtain ⟨m, u, hu, he⟩ := hf 0 s rfl
    cases (run_rest h m).symm.trans hu
    rcases he with he | ⟨r, rest, -, hr, -⟩
    · exact Classical.not_not.1 he
    · rw [h] at hr; cases hr
  · intro hp n t ht
    cases (run_rest h n).symm.trans ht
    exact ⟨0, s, rfl, .inl fun he => he hp⟩

/-- What is fair stays fair along the run. -/
theorem weaklyFair_step {s t : State} (hf : WeaklyFair s) (h : step s = .next t) : WeaklyFair t :=
  fun n u hu => hf (n + 1) u ((run_succ n h).trans hu)

/-- A step to a fair state comes from a fair one. -/
theorem weaklyFair_of_step {s t : State} (hf : WeaklyFair t) (h : step s = .next t) : WeaklyFair s := by
  intro n u hu
  cases n with
  | zero =>
    have hs : Host.Outcome.next s = Host.Outcome.next u := hu
    injection hs with hs
    subst hs
    obtain ⟨m, v, hv, he⟩ := hf 0 t rfl
    exact ⟨m + 1, v, (run_succ m h).trans hv, he⟩
  | succ n => exact hf n u ((run_succ n h).symm.trans hu)

/-- In a fair state that stops, no request is pending. -/
theorem weaklyFair_stop {s : State} (hf : WeaklyFair s) (h : ∀ t, step s ≠ .next t) : s.pending = none := by
  obtain ⟨m, u, hu, he⟩ := hf 0 s rfl
  cases m with
  | zero =>
    have hs : Host.Outcome.next s = Host.Outcome.next u := hu
    injection hs with hs
    subst hs
    rcases he with he | ⟨_, _, t, _, ht⟩
    · exact Classical.not_not.1 he
    · exact absurd ht (h t)
  | succ m => obtain ⟨t, ht, -⟩ := run_succ_inv hu; exact absurd ht (h t)

end Sys2Proof.Machine
end

