-- ==== Sys2Proof/Laws/Invariant.lean ====
section
/-! SUPPORT. What the invariant says of a state in flight, and that it does not speak of the schedule or of the host's last
response. -/

namespace Sys2Proof.Machine

/-- BUSY is only in ABSORB (R48 item 2). -/
theorem Inv.absorb_of_busy {s : State} (h : Inv s) (hs : s.seq ≠ .waitNone) : s.phase = .absorb := by
  have hq := h.quietPhases
  cases hp : s.phase <;> simp_all

/-- BUSY is only while a request is pending (R48 item 1). -/
theorem Inv.busy_of_pending {s : State} {req : CipherRequest} (h : Inv s) (hp : s.pending = some req) :
    s.seq ≠ .waitNone := by
  rw [ne_eq, h.seqPending, hp]; simp

/-- The invariant speaks of neither the schedule nor the host's last response. -/
theorem Inv.with_env {s : State} (h : Inv s) (inputs : List Event) (resp : BusResponse) :
    Inv { s with inputs := inputs, resp := resp } :=
  { h with }

end Sys2Proof.Machine
end

