-- ==== Sys2Proof/Laws/Subkey.lean ====
section
/-! SUPPORT. The bits of a doubled and of a halved block (spec 40_subkey_generator.md R110, R115). -/

namespace Sys2Proof.Machine

/-- The bits of the constant Rb (R112). -/
theorem getLsbD_rb (i : Nat) : rb.getLsbD i = (decide (i = 0) || decide (i = 1) || decide (i = 2) || decide (i = 7)) := by
  by_cases h : i < 8
  · interval_cases i <;> decide
  · have h1 : rb.getLsbD i = false := by
      by_cases h2 : i < 128
      · revert i
        have : ∀ i : Fin 128, ¬ i.val < 8 → rb.getLsbD i.val = false := by decide
        intro i h h2; exact this ⟨i, h2⟩ h
      · exact BitVec.getLsbD_of_ge _ _ (by omega)
    rw [h1]; symm; simp [-BitVec.getLsbD_eq_getElem]; omega

/-- Bit `i` of a doubled block. -/
theorem getLsbD_dbl (b : Block) (i : Nat) (hi : i < 128) : (dbl b).getLsbD i =
   (((decide (1 ≤ i)) && b.getLsbD (i-1)) ^^ (b.getLsbD 127 && rb.getLsbD i)) := by
  unfold dbl
  split <;> rename_i h
  · have : ¬ i < 1 ↔ 1 ≤ i := by omega
    by_cases h0 : 1 ≤ i
    · have : ¬ i < 1 := by omega
      simp [-BitVec.getLsbD_eq_getElem, h, hi, this, h0]
    · have : i = 0 := by omega
      subst this; simp [-BitVec.getLsbD_eq_getElem, h]
  · by_cases h0 : 1 ≤ i
    · have : ¬ i < 1 := by omega
      simp [-BitVec.getLsbD_eq_getElem, h, hi, h0]; intro; omega
    · have : i = 0 := by omega
      subst this; simp [-BitVec.getLsbD_eq_getElem, h]

/-- Bit `i` of a halved block. -/
theorem getLsbD_half (d : Block) (i : Nat) (hi : i < 128) : (half d).getLsbD i =
   if i = 127 then d.getLsbD 0 else (d.getLsbD (i+1) ^^ (d.getLsbD 0 && rb.getLsbD (i+1))) := by
  unfold half
  split <;> rename_i h
  · by_cases h0 : i = 127
    · subst h0; simp [-BitVec.getLsbD_eq_getElem, h]
    · have : (1 <<< 127 : Block).getLsbD i = false := by
        have key : ∀ i : Fin 128, i.val ≠ 127 → (1 <<< 127 : Block).getLsbD i.val = false := by decide
        exact key ⟨i, hi⟩ h0
      rw [BitVec.getLsbD_or, this]
      simp [-BitVec.getLsbD_eq_getElem, h, h0, Nat.add_comm]
  · by_cases h0 : i = 127
    · subst h0; simp [-BitVec.getLsbD_eq_getElem, h]
    · simp [-BitVec.getLsbD_eq_getElem, h, h0, Nat.add_comm]

end Sys2Proof.Machine
end

