-- ==== Sys2Proof/Tests/Slice0.lean ====
section
/-! SUPPORT. Tests and witnesses. Every expected value is the spec's own (95_test_vectors.md and the tables of the section
files, named in each comment), and a witness shows a state and operands that meet all the hypotheses of one statement. -/

namespace Sys2Proof.Tests

open Sys2Proof.Machine

/-- The state a step or a command answered with. -/
def stateOf : Host.Outcome State Fault Refusal → Option State
  | .next s => some s
  | .fault _ | .refused _ => none

/-- STATUS and ERR_INFO after a command word is written to CMD. -/
def statusAfter (w : Word) (s : State) : Option (Word × Word) :=
  (stateOf (acceptWord w s)).map fun t => (statusWord t, t.errInfo)

/-- The data a read of an absolute address answers. -/
def busAnswer (a : BusAccess) (s : State) : Option BusResponse := (stateOf (busStep a s)).map State.resp

/-- `k128`, its subkeys and the blocks of `M` (95_test_vectors.md, head and tables D and C). -/
def k128 : Key := bytesOf (0x2b7e151628aed2a6abf7158809cf4f3c : Block)
def l128 : Block := 0x7df76b0c1ab899b33e42f047b91b546f
def m0 : Block := 0x6bc1bee22e409f96e93d7e117393172a
def m1 : Block := 0xae2d8a571e03ac9c9eb76fac45af8e51
def m2 : Block := 0x30c81c46a35ce411e5fbc1191a0a52ef

/-- Reset, then the key, the length and the phase set: the start states of table V7. -/
def ready (kl : BitVec 6) (len : BitVec 64) : State :=
  { State.reset with keyLen := kl, keyB := keyStoreOfBytes k128, msgLen := len }

/-- A 40-byte message open under k128, before its block `i` (95_test_vectors.md c17, c18). -/
def open40 (i : BitVec 64) (x : Block) : State :=
  { ready 16 40 with
    phase := .absorb, keyS := k128, lenS := 40, remS := 8, nblk := 3, blkIdx := i, x := x,
    k1 := 0xfbeed618357133667c85e08f7236a8de, k2 := 0xf7ddac306ae266ccf90bc11ee46d513b }

/-- The same with a request in flight. -/
def busy40 : State := { open40 0 0 with pending := some ⟨k128, m0⟩, seq := .waitChain }

/-- DONE after one complete block. -/
def done16 : State :=
  { State.reset with phase := .done, nblk := 1, blkIdx := 1, lastComplete := true, outValid := true, ip := true }

/-- ERROR after a PUSH in IDLE. -/
def inError : State := raise (.sequenceError 2 .idle) State.reset

/-! ### Decoding and well-formedness -/

/-- 30_encoding.md R90, R92: OP = 1, RSVD = 0. -/
theorem test_decode_init : decode 0b00000000000000000000000000000001 = .command .init := by decide
/-- OP = 2. -/
theorem test_decode_push : decode 0b00000000000000000000000000000010 = .command .push := by decide
/-- OP = 3. -/
theorem test_decode_double : decode 0b00000000000000000000000000000011 = .command .double := by decide
/-- OP = 4, and as the opcode table numbers bits. -/
theorem test_decode_clear :
    decode 0b00000000000000000000000000000100 = .command .clear ∧ decodeTableWord 32 4 = some .clear := by decide
/-- OP = 0 with RSVD = 0 is NOP, with RSVD = 1 it is not (R93). -/
theorem test_decode_nop :
    decode 0b00000000000000000000000000000000 = .command .nop ∧ decodeTableWord 32 0x10 = none := by decide

/-- Ill-formed: RSVD = 1 in `CMD 0x13` (95_test_vectors.md P5 step 6). -/
theorem test_reserved_bits_refused : reservedBitsClear 0x13 = false ∧ reservedBitsClear 0xF = true := by decide
/-- Ill-formed: OP = 0x5, the first reserved opcode (R92). -/
theorem test_reserved_opcode_refused : opcodeDefined 0x5 = false ∧ opcodeDefined 0x4 = true := by decide
/-- Each check alone makes a word ill-formed (R93). -/
theorem test_word_refused :
    wordWellFormed 0x13 = false ∧ wordWellFormed 0x5 = false ∧ wordWellFormed 0x3 = true := by decide
/-- Ill-formed: a base that is no multiple of 0x80 (R71). -/
theorem test_base_refused : baseWellFormed 0x40 = false ∧ baseWellFormed 0x4000_0080 = true := by decide
/-- No command is ill-formed as syntax: it has no operand (R91). -/
theorem test_command_well_formed : ∀ i : Instr, i.wellFormed = true := by intro i; cases i <;> rfl

/-! ### Commands (95_test_vectors.md V7) -/

/-- c1: NOP while BUSY and in ERROR. -/
theorem test_nop : acceptWord 0 busy40 = .next busy40 ∧ acceptWord 0 inError = .next inError := ⟨rfl, rfl⟩
/-- c2. -/
theorem test_init : statusAfter 1 (ready 16 40) = some (0x00000003, 0) ∧
    (stateOf (exec .init (ready 16 40))).map (fun t => (t.nblk, t.blkIdx, t.remS, t.pending)) =
      some (3, 0, 8, some ⟨k128, 0⟩) := by decide
/-- c3 and c5. -/
theorem test_init_bad_key : statusAfter 1 (ready 10 40) = some (0x00000146, 0x0007000A) ∧
    (statusAfter 1 (ready 33 40)).map Prod.snd = some 0x00070021 := by decide
/-- c17 and c18: the requests of block 0 and of the last, padded block. -/
theorem test_push : (stateOf (exec .push { open40 0 0 with dataB := m0 })).map (fun t => (t.pending, t.seq)) =
      some (some ⟨k128, m0⟩, .waitChain) ∧
    (stateOf (exec .push { open40 2 0xb148c17f309ee692287ae57cf12add49 with dataB := m2 })).map
      (fun t => (t.pending, t.seq)) = some (some ⟨k128, 0x765d7109f920644f5171246215478c72⟩, .waitTag) := by decide
/-- c7 and c8. -/
theorem test_push_wrong_phase : statusAfter 2 State.reset = some (0x00000446, 0x00000002) ∧
    (statusAfter 2 done16).map Prod.snd = some 0x00000202 := by decide
/-- c14. -/
theorem test_double : statusAfter 3 { State.reset with dataB := 0x80000000000000000000000000000000 } =
    some (0x00000050, 0) := by decide
/-- c15: the open message goes on. -/
theorem test_double_in_absorb :
    (stateOf (exec .double { open40 1 m1 with dataB := 0xffffffffffffffffffffffffffffffff })).map
      (fun t => (t.outB, t.outValid, t.x, t.blkIdx, t.phase)) =
    some (0xffffffffffffffffffffffffffffff79, true, m1, 1, .absorb) := by decide
/-- c13. -/
theorem test_clear : statusAfter 4 inError = some (0x00000000, 0x00000000) ∧
    (stateOf (exec .clear { inError with keyLen := 10 })).map (fun t => ctrlWord t) = some 0x0000000A := by decide
/-- c6: CLEAR while BUSY is dropped. -/
theorem test_clear_busy : acceptWord 4 busy40 = .next { busy40 with cmdDrop := true } := rfl

/-- c9, c10, c11. -/
theorem test_illegal_words : statusAfter 0x5 State.reset = some (0x00000346, 0x00000005) ∧
    statusAfter 0x10 State.reset = some (0x00000346, 0x00000010) ∧
    statusAfter 0xFFFFFFFF State.reset = some (0x00000346, 0xFFFFFFFF) := by decide
/-- c12 and P5 step 3: dropped in ERROR, not decoded. -/
theorem test_illegal_word_in_error : statusAfter 0x13 inError = some (0x00000466, 0x00000002) := by decide

/-! ### Cipher responses -/

/-- V1: with the L of k128 the empty message asks for 77ddac30…, whose answer is the tag. -/
theorem test_empty_message :
    (finishSubkeys l128 { open40 0 0 with lenS := 0, seq := .waitL }).pending =
      some ⟨k128, 0x77ddac306ae266ccf90bc11ee46d513b⟩ := by decide
/-- c17: the chain response. -/
theorem test_chain_response : ∃ t, cipherStep .ok busy40 = .next t ∧ t.blkIdx = 1 ∧ t.ip = true ∧ t.seq = .waitNone :=
  ⟨_, rfl, rfl, rfl, rfl⟩
/-- c19 and P8: Err(0x5A) while 64 bytes are being chained. -/
theorem test_cipher_fault :
    (stateOf (cipherStep (.err 0x5A) { busy40 with lastComplete := true })).map
      (fun t => (statusWord t, t.errInfo, t.nblk, t.blkIdx)) = some (0x0000024E, 0x0000005A, 3, 0) := by decide

/-! ### Registers and the bus (95_test_vectors.md V8; 10_state.md R32) -/

/-- ID, KEY0 and CMD as a host reads them, and a reserved offset. -/
theorem test_reads : busAnswer (.read 0x00) (ready 16 40) = some (.readData 0x434D4143) ∧
    busAnswer (.read 0x40) (ready 16 40) = some (.readData 0) ∧ busAnswer (.read 0x0C) busy40 = some (.readData 0) ∧
    busAnswer (.read 0x30) busy40 = some (.readData 0) := by decide
/-- An 8-bit read of 0x00 and a 32-bit read of 0x02 are bus errors with data 0. -/
theorem test_bus_errors : busAnswer (.readOther 0x00 .w8) busy40 = some (.readError 0) ∧
    busAnswer (.read 0x02) busy40 = some (.readError 0) := by decide
/-- 0xFFFFFFFF written to CTRL reads back as 0x0000013F. -/
theorem test_ctrl : ctrlWord (writeCtrl 0xFFFFFFFF State.reset) = 0x0000013F := by decide
/-- A write to OUT0 is ignored with a normal response. -/
theorem test_write_out : busStep (.write 0x70 0x12345678) busy40 = .next { busy40 with resp := .writeDone } := rfl
/-- 6b c1 be e2 written to DATA0 is 0x6BC1BEE2, and byte 0 of DATAB is 0x6b. -/
theorem test_data_bytes : byteAt (writeData 0 0x6BC1BEE2 State.reset).dataB 0 = 0x6b ∧
    wordAt (writeData 0 0x6BC1BEE2 State.reset).dataB 0 = 0x6BC1BEE2 := by decide
/-- KEY7 holds the last four bytes of a 32-byte key (P7). -/
theorem test_key_bytes : byteAt (writeKey 7 0x0914DFF4 State.reset).keyB 28 = 0x09 ∧
    byteAt (writeKey 7 0x0914DFF4 State.reset).keyB 31 = 0xF4 := by decide
/-- The STATUS writes below table V7. -/
theorem test_status_write : statusWord (writeStatus 0x60 { State.reset with ip := true, cmdDrop := true }) = 0 ∧
    statusWord (writeStatus 0x40 { State.reset with ip := true, cmdDrop := true }) = 0x20 ∧
    statusWord (writeStatus 0xFFFFFF9F { State.reset with ip := true, cmdDrop := true }) = 0x60 := by decide
/-- The expansions of P1: `LDKEY` k128 and `LDLEN 40` (R97). -/
theorem test_assembler : asmLdkey false 0 k128 = some
      [.host (.write 0x40 0x2B7E1516), .host (.write 0x44 0x28AED2A6), .host (.write 0x48 0xABF71588),
        .host (.write 0x4C 0x09CF4F3C), .host (.write 0x04 0x00000010)] ∧
    asmLdlen 0 40 = [.host (.write 0x14 0x00000028), .host (.write 0x18 0x00000000)] := by decide
/-- P4: a 10-byte key fills KEY2 with 0xABF70000. -/
theorem test_short_key : asmLdkey false 0 (k128.take 10) = some
    [.host (.write 0x40 0x2B7E1516), .host (.write 0x44 0x28AED2A6), .host (.write 0x48 0xABF70000),
      .host (.write 0x04 0x0000000A)] := by decide
/-- The port shows the key left-aligned with its length (R50). -/
theorem test_cipher_port : cipherPort busy40 =
    some ⟨16, 0x2b7e151628aed2a6abf7158809cf4f3c00000000000000000000000000000000, m0⟩ := by decide
/-- A command placed by `withFetchWord` is the very next step: DOUBLE after reset. -/
theorem test_fetch : (stateOf (step (State.reset.withFetchWord 32 3))).map (fun t => (statusWord t, t.inputs)) =
    some (0x00000050, []) := by decide

/-! ### The datapath -/

/-- The corner table of 40_subkey_generator.md R117 and the last row of table D. -/
theorem test_dbl :
    dbl 0x00000000000000000000000000000000 = 0x00000000000000000000000000000000 ∧
    dbl 0x00000000000000000000000000000001 = 0x00000000000000000000000000000002 ∧
    dbl 0x40000000000000000000000000000000 = 0x80000000000000000000000000000000 ∧
    dbl 0x80000000000000000000000000000000 = 0x00000000000000000000000000000087 ∧
    dbl 0x01000000000000000000000000000000 = 0x02000000000000000000000000000000 ∧
    dbl 0x00000000000000000000000000000087 = 0x0000000000000000000000000000010e ∧
    dbl 0x7fffffffffffffffffffffffffffffff = 0xfffffffffffffffffffffffffffffffe ∧
    dbl 0xffffffffffffffffffffffffffffffff = 0xffffffffffffffffffffffffffffff79 ∧
    dbl 0x80000000000000000000000000000001 = 0x00000000000000000000000000000085 ∧
    dbl 0x0102030405060708090a0b0c0d0e0f10 = 0x020406080a0c0e10121416181a1c1e20 := by decide
/-- The column half(B) of table D. -/
theorem test_half :
    half 0xffffffffffffffffffffffffffffffff = 0xffffffffffffffffffffffffffffffbc ∧
    half 0x00000000000000000000000000000001 = 0x80000000000000000000000000000043 ∧
    half 0x00000000000000000000000000000087 = 0x80000000000000000000000000000000 := by decide
/-- The subkeys of the three key sizes from their L. -/
theorem test_subkeys :
    subkeys l128 = (0xfbeed618357133667c85e08f7236a8de, 0xf7ddac306ae266ccf90bc11ee46d513b) ∧
    subkeys 0x22452d8e49a8a5939f7321ceea6d514b =
      (0x448a5b1c93514b273ee6439dd4daa296, 0x8914b63926a2964e7dcc873ba9b5452c) ∧
    subkeys 0xe568f68194cf76d6174d4cc04310a854 =
      (0xcad1ed03299eedac2e9a99808621502f, 0x95a3da06533ddb585d3533010c42a0d9) := by decide
/-- Lengths 0, 1, 15, 16, 17, 40, 64 and the top of the range (41_segmenter.md R139). -/
theorem test_classify : classify 0 = ⟨1, false, 0⟩ ∧ classify 1 = ⟨1, false, 1⟩ ∧ classify 15 = ⟨1, false, 15⟩ ∧
    classify 16 = ⟨1, true, 0⟩ ∧ classify 17 = ⟨2, false, 1⟩ ∧ classify 40 = ⟨3, false, 8⟩ ∧
    classify 64 = ⟨4, true, 0⟩ ∧ classify 0xFFFFFFFFFFFFFFF0 = ⟨0x0FFFFFFFFFFFFFFF, true, 0⟩ ∧
    classify 0xFFFFFFFFFFFFFFF1 = ⟨0x1000000000000000, false, 1⟩ ∧
    classify 0xFFFFFFFFFFFFFFFF = ⟨0x1000000000000000, false, 15⟩ := by decide
/-- The pad table of part 2, S. -/
theorem test_pad : pad 0 0 = 0x80000000000000000000000000000000 ∧
    pad m0 15 = 0x6bc1bee22e409f96e93d7e1173931780 ∧ pad m1 1 = 0xae800000000000000000000000000000 ∧
    pad m2 8 = 0x30c81c46a35ce4118000000000000000 := by decide
/-- The combiner on V2 (complete, K1) and V3 (incomplete, K2). -/
theorem test_combine :
    combineInput 0 m0 true (subkeys l128).1 (subkeys l128).2 = 0x902f68fa1b31acf095b89e9e01a5bff4 ∧
    combineInput 0xb148c17f309ee692287ae57cf12add49 (pad m2 8) false (subkeys l128).1 (subkeys l128).2 =
      0x765d7109f920644f5171246215478c72 := by decide

/-- AES under k128 on the four blocks V1 and V3 need (95_test_vectors.md tables D, C and T). -/
def tableCipher (_ : Key) (b : Block) : Block :=
  if b = 0 then l128
  else if b = 0x6bc1bee22e409f96e93d7e117393172a then 0x3ad77bb40d7a3660a89ecaf32466ef97
  else if b = 0x94faf1e313799afc3629a55f61c961c6 then 0xb148c17f309ee692287ae57cf12add49
  else if b = 0x765d7109f920644f5171246215478c72 then 0xdfa66747de9ae63030ca32611497c827
  else if b = 0x77ddac306ae266ccf90bc11ee46d513b then 0xbb1d6929e95937287fa37d129b756746
  else 0
/-- V1 and V3: the document's tags of the empty message and of the 40-byte message. -/
theorem test_cmac : computeCmac tableCipher k128 [] = 0xbb1d6929e95937287fa37d129b756746 ∧
    computeCmac tableCipher k128 ((bytesOf m0 ++ bytesOf m1 ++ bytesOf m2).take 40) =
      0xdfa66747de9ae63030ca32611497c827 := by decide

/-! ### Witnesses: every hypothesis of a statement is met, each clause at a boundary of its range -/

/-- INIT's request in flight for a 40-byte and for an empty message. -/
def initBusy (len : BitVec 64) : State := (stateOf (exec .init (ready 16 len))).getD State.reset

/-- The last block's request in flight. -/
def tagBusy : State := { open40 2 m1 with pending := some ⟨k128, m2⟩, seq := .waitTag }

/-- A schedule put before a state. -/
def given (es : List Event) (s : State) : State := { s with inputs := es }

/-- `Inv` of the states the witnesses use. -/
theorem inv_reset : Inv State.reset where
  seqPending := by decide
  quietPhases := by decide
  absorbIndex := by decide
  doneResult := by decide
  closedSecrets := by decide
  errorCode := by decide
  absorbKey := by decide
  baseAligned := by decide
  requestKey := by intro r h; cases h
  waitLState := by decide
  waitChainIndex := by decide
  waitTagIndex := by decide
  absorbClass := by decide
  absorbNonempty := by decide
  indexLe := by decide
  countLe := by decide
  closedSnapshots := by decide
  noErrorInfo := by decide
  noOutput := by decide

/-- In ERROR, with an event to come. -/
theorem inv_error (es : List Event) : Inv (given es inError) where
  seqPending := by simp [given, inError, raise]
  quietPhases := fun _ => rfl
  absorbIndex := fun h => nomatch h
  doneResult := fun h => nomatch h
  closedSecrets := fun _ => ⟨rfl, rfl, rfl, rfl⟩
  errorCode := ⟨fun _ h => (nomatch h), fun _ => rfl⟩
  absorbKey := fun h => nomatch h
  baseAligned := rfl
  requestKey := by intro r h; cases h
  waitLState := fun h => nomatch h
  waitChainIndex := fun h => nomatch h
  waitTagIndex := fun h => nomatch h
  absorbClass := fun h => nomatch h
  absorbNonempty := fun h => nomatch h
  indexLe := Nat.le_refl 0
  countLe := Nat.zero_le _
  closedSnapshots := fun _ => ⟨rfl, rfl, rfl⟩
  noErrorInfo := fun h => nomatch h
  noOutput := fun _ => rfl

/-- BUSY in the middle of a message, with an event to come. -/
theorem inv_busy (es : List Event) : Inv (given es busy40) where
  seqPending := ⟨fun h => (nomatch h), fun h => (nomatch h)⟩
  quietPhases := fun h => by rcases h with h | h | h <;> exact nomatch h
  absorbIndex := fun _ _ => by show (0 : Nat) < 3; decide
  doneResult := fun h => nomatch h
  closedSecrets := fun h => by rcases h with h | h <;> exact nomatch h
  errorCode := ⟨fun h => (nomatch h), fun h => absurd rfl h⟩
  absorbKey := fun _ => .inl rfl
  baseAligned := rfl
  requestKey := by intro r h; cases h; rfl
  waitLState := fun h => nomatch h
  waitChainIndex := fun _ => by show (1 : Nat) < 3; decide
  waitTagIndex := fun h => nomatch h
  absorbClass := fun _ => by
    show (3 : BitVec 64) = (classify 40).blockCount ∧ false = (classify 40).lastComplete ∧ (8 : BitVec 4) = (classify 40).rem
    decide
  absorbNonempty := fun _ _ => by show (40 : BitVec 64) ≠ 0; decide
  indexLe := by show (0 : Nat) ≤ 3; decide
  countLe := by show (3 : Nat) ≤ 2 ^ 60; decide
  closedSnapshots := fun h => absurd rfl h
  noErrorInfo := fun _ => rfl
  noOutput := fun _ => rfl

theorem witness_illegalWordsRaiseOrDrop : decode 0x5 = .illegal .reservedOpcode ∧
    decode 0xF = .illegal .reservedOpcode ∧ decode 0x10 = .illegal .reservedBits ∧
    decode 0xFFFFFFFF = .illegal .reservedBits := by decide
theorem witness_commandWriteRunsDecodedCommand :
    (State.reset.withFetchWord 32 4).inputs = .host (.write (State.reset.base + 0x0C) 4) :: [] ∧
    2 ^ 32 - 1 < 2 ^ 32 := by decide
theorem witness_droppedWordsOnlySetCmdDrop : (5 : Word) ≠ 0x00000000 ∧ (4 : Word) ≠ 0x00000000 ∧
    busy40.seq ≠ .waitNone ∧ inError.phase = .error ∧ (5 : Word) ≠ 0x00000004 := by decide
theorem witness_phaseLegalityTable :
    (State.reset.seq = .waitNone ∧ State.reset.phase = .idle) ∧ (done16.seq = .waitNone ∧ done16.phase = .done) ∧
    ((open40 0 0).seq = .waitNone ∧ (open40 0 0).phase = .absorb) ∧
    inError.seq = .waitNone ∧ inError.phase = .error := by decide
theorem witness_nopChangesNothing :
    (0x10 : Word).extractLsb' 0 4 = 0 ∧ (0x10 : Word).extractLsb' 4 28 ≠ 0 ∧
    (0x80000000 : Word).extractLsb' 0 4 = 0 ∧ (0x80000000 : Word).extractLsb' 4 28 ≠ 0 := by decide
theorem witness_initOpensMessage : (ready 16 0).seq = .waitNone ∧ (ready 16 0).phase ≠ .error ∧
    (ready 16 0).keyLen = 16 ∧ (ready 24 1).keyLen = 24 ∧ (ready 32 40).keyLen = 32 := by decide
theorem witness_initRefusesBadKeyLength : (ready 0 40).seq = .waitNone ∧ (ready 0 40).phase ≠ .error ∧
    ∀ kl ∈ ([0, 15, 17, 23, 25, 31, 33, 63] : List (BitVec 6)),
      (ready kl 40).keyLen ≠ 16 ∧ (ready kl 40).keyLen ≠ 24 ∧ (ready kl 40).keyLen ≠ 32 := by decide
theorem witness_pushIssuesCipherRequest :
    ((open40 1 0).seq = .waitNone ∧ (open40 1 0).phase = .absorb ∧
      (open40 1 0).blkIdx.toNat + 1 < (open40 1 0).nblk.toNat) ∧
    (¬ (open40 2 0).blkIdx.toNat + 1 < (open40 2 0).nblk.toNat ∧ (open40 2 0).lastComplete = false) ∧
    { open40 2 0 with lastComplete := true }.lastComplete = true := by decide
theorem witness_doubleWritesDoubledBlock :
    State.reset.seq = .waitNone ∧ State.reset.phase ≠ .error ∧ inError.phase = .error := by decide
theorem witness_clearReturnsToIdle : inError.seq = .waitNone ∧ busy40.seq ≠ .waitNone ∧
    (∃ t, exec .clear inError = .next t) := ⟨by decide, by decide, _, rfl⟩
theorem witness_subkeyResponseDerivesSubkeys :
    ((initBusy 0).seq = .waitL ∧ (initBusy 0).pending = some ⟨(initBusy 0).keyS, 0⟩ ∧ (initBusy 0).lenS = 0) ∧
    (initBusy 1).seq = .waitL ∧ (initBusy 1).pending = some ⟨(initBusy 1).keyS, 0⟩ ∧ (initBusy 1).lenS ≠ 0 := by
  decide
theorem witness_chainResponseAdvances : busy40.seq = .waitChain ∧ busy40.pending = some ⟨k128, m0⟩ ∧
    busy40.blkIdx.toNat + 1 < busy40.nblk.toNat := by decide
theorem witness_tagResponseClosesMessage : tagBusy.seq = .waitTag ∧ tagBusy.pending = some ⟨k128, m2⟩ ∧
    tagBusy.blkIdx.toNat + 1 = tagBusy.nblk.toNat := by decide
theorem witness_cipherFailureEntersError :
    busy40.pending = some ⟨k128, m0⟩ ∧ busy40.cipherFaults = true := by decide
theorem witness_cipherStepOnlyWhilePending : State.reset.pending = none ∧ busy40.pending = some ⟨k128, m0⟩ ∧
    busy40.seq ≠ .waitNone := by decide
theorem witness_errorInfoLayout : Inv State.reset ∧ errCodeBits State.reset.errCode = 0 := ⟨inv_reset, rfl⟩
theorem witness_errorLeftOnlyByClearOrReset :
    (∃ s t, Inv s ∧ s.phase = .error ∧ step s = .next t ∧ t.phase = .error) ∧
    (∃ s t, Inv s ∧ s.phase = .error ∧ step s = .next t ∧ s.inputs = .reset :: []) ∧
    ∃ s t, Inv s ∧ s.phase = .error ∧ step s = .next t ∧
      s.inputs = .host (.write (s.base + 0x0C) 0x00000004) :: [] :=
  ⟨⟨given [.host (.write 0x0C 0x00000001)] inError, _, inv_error _, rfl, rfl, rfl⟩,
    ⟨given [.reset] inError, _, inv_error _, rfl, rfl, rfl⟩,
    ⟨given [.host (.write 0x0C 0x00000004)] inError, _, inv_error _, rfl, rfl, rfl⟩⟩
theorem witness_cmdDropIsSticky :
    (busy40.seq ≠ .waitNone ∧ inError.phase = .error ∧ (1 : Word) ≠ 0 ∧ (1 : Word) ≠ 4) ∧
    (∃ t, step (given [.reset] { inError with cmdDrop := true }) = .next t ∧ t.cmdDrop = false) ∧
    (∃ t, step (given [.host (.write 0x0C 4)] { inError with cmdDrop := true }) = .next t ∧ t.cmdDrop = false) ∧
    ∃ t, step (given [.host (.write 0x08 0x20)] { inError with cmdDrop := true }) = .next t ∧ t.cmdDrop = false :=
  ⟨by decide, ⟨_, rfl, rfl⟩, ⟨_, rfl, rfl⟩, ⟨_, rfl, rfl⟩⟩
theorem witness_reservedAndReadOnlyIgnoreWrites :
    (0x3C ∈ [0x2C, 0x30, 0x34, 0x38, 0x3C]) ∧ (0x7C ∈ [0x00, 0x10, 0x1C, 0x20, 0x24, 0x28, 0x70, 0x74, 0x78, 0x7C]) ∧
    ((0xFFFFFEC0 : Word).extractLsb' 0 6 = (0 : Word).extractLsb' 0 6 ∧
      (0xFFFFFEC0 : Word).getLsbD 8 = (0 : Word).getLsbD 8) ∧
    (0xFFFFFF9F : Word).getLsbD 5 = (0 : Word).getLsbD 5 ∧ (0xFFFFFF9F : Word).getLsbD 6 = (0 : Word).getLsbD 6 := by
  decide
theorem witness_keyWritePlacesBytes : 31 < 32 ∧ 31 / 4 ≠ (0 : Fin 8).val ∧ 0 / 4 ≠ (7 : Fin 8).val := by decide
theorem witness_accessReachesRegisterAtOffset :
    ((given [.host (.read 0x7C)] busy40).inputs = .host (.read 0x7C) :: [] ∧ busy40.base ≤ 0x7C ∧
      0x7C < busy40.base + 0x80 ∧ (0x7C - busy40.base) % 4 = 0) ∧
    (0x00, .id) ∈ windowTable ∧ (0x7C, .out 3) ∈ windowTable := by decide
theorem witness_badAccessGetsBusError : busy40.base ≤ 0x7F ∧ 0x7F < busy40.base + 0x80 ∧ (0x7F - busy40.base) % 4 ≠ 0 ∧
    busy40.base ≤ 0x00 ∧ (0x01 - busy40.base) % 4 ≠ 0 := by decide
theorem witness_outsideAccessLeavesCore :
    (0x7F < { busy40 with base := 0x80 }.base) ∧ busy40.base + 0x80 ≤ 0x80 := by decide
theorem witness_dblByteForm : 14 < 15 ∧ byteAt (0x80000000000000000000000000000000 : Block) 0 &&& 0x80 ≠ 0 ∧
    ¬ byteAt (0x7fffffffffffffffffffffffffffffff : Block) 0 &&& 0x80 ≠ 0 := by decide
theorem witness_classifyCountsBlocks : (0xFFFFFFFFFFFFFFFF : BitVec 64) ≠ 0 ∧
    (0xFFFFFFFFFFFFFFF0 : BitVec 64).toNat = 2 ^ 64 - 16 ∧
    2 ^ 64 - 15 ≤ (0xFFFFFFFFFFFFFFF1 : BitVec 64).toNat := by decide
theorem witness_padLaysOutBytes : 0 < (15 : BitVec 4).toNat ∧ 15 < 16 ∧ 15 = (15 : BitVec 4).toNat ∧
    ¬ 15 < (0 : BitVec 4).toNat := by decide
theorem witness_pushIgnoresBytesBeyondRemainder :
    (open40 2 0).seq = .waitNone ∧ (open40 2 0).phase = .absorb ∧
    ¬ (open40 2 0).blkIdx.toNat + 1 < (open40 2 0).nblk.toNat ∧ (open40 2 0).lastComplete = false ∧
    ∀ j, j < (open40 2 0).remS.toNat →
      byteAt (0x0000000000000000ffffffffffffffff : Block) j = byteAt (open40 2 0).dataB j := by decide
theorem witness_segmenterMatchesDocument :
    ([] : List Byte).length < 2 ^ 64 ∧ ([0x80] : List Byte).length < 2 ^ 64 ∧ ([0x80] : List Byte) ≠ [] ∧
    ∀ j, j < 16 → 16 * ((classify 1).blockCount.toNat - 1) + j < 1 →
      some (byteAt (0x80ffffffffffffffffffffffffffffff : Block) j) =
        ([0x80] : List Byte)[16 * ((classify 1).blockCount.toNat - 1) + j]? := by decide
theorem witness_resetInputRestoresReset : (given [.reset] busy40).inputs = .reset :: [] := rfl
theorem witness_bootStateMeetsInvariant : 0x80 % 0x80 = 0 ∧ 0 % 0x80 = 0 := by decide
theorem witness_stepKeepsInvariant :
    (∃ t, Inv (given [.host (.write 0x0C 3)] State.reset) ∧ step (given [.host (.write 0x0C 3)] State.reset) = .next t) ∧
    ∃ t, Inv (given [.cipher .ok] busy40) ∧ step (given [.cipher .ok] busy40) = .next t :=
  ⟨⟨_, { inv_reset with }, rfl⟩, ⟨_, inv_busy _, rfl⟩⟩
theorem witness_reachableMeetsSpecInvariants : Reachable (bootState 0x80 true [.reset]) :=
  ⟨0x80, true, [.reset], 0, rfl, rfl⟩
theorem witness_stepKeepsParameters : ∃ t, step (given [.cipher (.err 0x5A)] busy40) = .next t := ⟨_, rfl⟩
theorem witness_onlyDisabledCipherStepsStop :
    (Inv (given [.cipher .ok] inError) ∧ ∀ t, step (given [.cipher .ok] inError) ≠ .next t) ∧
    Inv (given [.cipher (.err 0)] { busy40 with cipherFaults := false }) ∧
    ∀ t, step (given [.cipher (.err 0)] { busy40 with cipherFaults := false }) ≠ .next t :=
  ⟨⟨inv_error _, fun _ h => nomatch h⟩, { inv_busy [] with }, fun _ h => nomatch h⟩
theorem witness_ipChangesOnlyAsRuled_rise :
    (∃ t, step (given [.host (.write 0x0C 2)] State.reset) = .next t ∧ Inv (given [.host (.write 0x0C 2)] State.reset) ∧
      State.reset.ip = false ∧ t.ip = true) ∧
    (∃ t, step (given [.cipher .ok] busy40) = .next t ∧ Inv (given [.cipher .ok] busy40) ∧ busy40.ip = false ∧
      t.ip = true) ∧
    ∃ t, step (given [.host (.write 0x0C 3)] State.reset) = .next t ∧ Inv (given [.host (.write 0x0C 3)] State.reset) ∧
      State.reset.ip = false ∧ t.ip = true :=
  ⟨⟨_, rfl, { inv_reset with }, rfl, rfl⟩, ⟨_, rfl, inv_busy _, rfl, rfl⟩, ⟨_, rfl, { inv_reset with }, rfl, rfl⟩⟩
theorem witness_ipChangesOnlyAsRuled_fall :
    (∃ t, step (given [.reset] done16) = .next t ∧ done16.ip = true ∧ t.ip = false) ∧
    (∃ t, step (given [.host (.write 0x0C 4)] done16) = .next t ∧ done16.ip = true ∧ t.ip = false ∧
      done16.seq = .waitNone) ∧
    ∃ t, step (given [.host (.write 0x08 0x40)] done16) = .next t ∧ done16.ip = true ∧ t.ip = false :=
  ⟨⟨_, rfl, rfl, rfl⟩, ⟨_, rfl, rfl, rfl, rfl⟩, ⟨_, rfl, rfl, rfl⟩⟩
theorem witness_hostAccessLeavesInFlightCommand : busy40.seq ≠ .waitNone ∧
    (given [.host (.write 0x0C 4)] busy40).inputs = .host (.write 0x0C 4) :: [] := by decide
theorem witness_hostRegistersChangeOnlyByHostWrite :
    ∃ t, step (given [.cipher .ok] busy40) = .next t ∧ (∀ rest, (given [.cipher .ok] busy40).inputs ≠ .reset :: rest) ∧
      ∀ (off : Nat) (v : Word) (rest : List Event),
        off = 0x04 ∨ off = 0x14 ∨ off = 0x18 ∨ (0x40 ≤ off ∧ off < 0x70) →
        (given [.cipher .ok] busy40).inputs ≠ .host (.write ((given [.cipher .ok] busy40).base + off) v) :: rest :=
  ⟨_, rfl, fun _ h => (nomatch h), fun _ _ _ _ h => nomatch h⟩
theorem witness_readsRevealNoSecrets :
    hostView busy40 = hostView { busy40 with keyB := 0, keyS := [], k1 := 1, k2 := 2, x := 3 } ∧
    busy40 ≠ { busy40 with keyB := 0, keyS := [], k1 := 1, k2 := 2, x := 3 } := by decide
theorem witness_busyEndsWithinTwoAnswers : Inv (given [.cipher .ok, .cipher .ok] busy40) ∧ busy40.seq ≠ .waitNone ∧
    (given [.cipher .ok, .cipher .ok] busy40).inputs = .cipher .ok :: .cipher .ok :: [] :=
  ⟨inv_busy _, by decide, rfl⟩
theorem witness_loadKeySetsOperand : ∃ es, asmLdkey true State.reset.base k128 = some es ∧
    (given es State.reset).inputs = es ++ [] := ⟨_, rfl, rfl⟩
theorem witness_loadKeySetsOperand_longest : ∃ es, asmLdkey true 0 (List.replicate 32 0x11) = some es :=
  ⟨_, rfl⟩

/-- The schedule of a 17-byte message, with STATUS polled before and after each answer. -/
def ps17 : List (Block × Nat × Nat) := [(m0, 1, 1), (m1, 0, 2)]
theorem witness_messageTagIsCmac :
    (ready 32 17).seq = .waitNone ∧ (ready 32 17).phase ≠ .error ∧ (ready 32 17).keyLen = 32 ∧
    ps17.length = (if (ready 32 17).msgLen = 0 then 0 else (classify (ready 32 17).msgLen).blockCount.toNat) ∧
    (given (messageSchedule 0 17 2 1 0 ps17) (ready 32 17)).inputs =
      messageSchedule (ready 32 17).base (ready 32 17).msgLen 2 1 0 ps17 := by decide
theorem witness_messageTagIsCmac_empty :
    (ready 16 0).keyLen = 16 ∧ (ready 24 0).keyLen = 24 ∧
    ([] : List (Block × Nat × Nat)).length =
      (if (ready 16 0).msgLen = 0 then 0 else (classify (ready 16 0).msgLen).blockCount.toNat) ∧
    (given (messageSchedule 0 0 2 1 0 []) (ready 16 0)).inputs =
      messageSchedule (ready 16 0).base (ready 16 0).msgLen 2 1 0 [] := by decide

/-- The whole host program for the one-block message of V2, each STATUS poll answered once. -/
def program16 : List Event :=
  (asmLdkey false 0 k128).getD [] ++ asmLdlen 0 16 ++ messageSchedule 0 16 0 0 0 [(m0, 1, 0)]
theorem witness_hostProgramComputesCmac :
    let s := given (program16 ++ asmRdout 0) State.reset
    s.seq = .waitNone ∧ s.phase ≠ .error ∧ k128.length = 16 ∧ (bytesOf m0).length < 2 ^ 64 ∧
    asmLdkey false s.base k128 = some ((asmLdkey false 0 k128).getD []) ∧
    program16 = (asmLdkey false 0 k128).getD [] ++ asmLdlen s.base (BitVec.ofNat 64 (bytesOf m0).length) ++
      messageSchedule s.base (BitVec.ofNat 64 (bytesOf m0).length) 0 0 0
        (if bytesOf m0 = [] then [] else
          (List.range (((bytesOf m0).length + 15) / 16)).map fun i => (messageBlock (bytesOf m0) i, (1, 0))) ∧
    s.inputs = program16 ++ asmRdout s.base := by
  decide

theorem witness_cipherPortShowsRequest : Inv (given [] busy40) ∧ (given [] busy40).pending = some ⟨k128, m0⟩ ∧
    k128.length ≤ 32 ∧ 31 < 32 ∧ 15 < k128.length ∧ ¬ 16 < k128.length := ⟨inv_busy _, by decide⟩
theorem witness_cipherPortShowsRequest_longest :
    { busy40 with pending := some ⟨List.replicate 32 0x11, 0⟩ }.pending = some ⟨List.replicate 32 0x11, 0⟩ ∧
    (List.replicate 32 (0x11 : Byte)).length ≤ 32 := by decide
/-- A schedule that answers the request is fair, one that ends before the answer is not. -/
theorem weaklyFair_answered : WeaklyFair (given [.cipher .ok] busy40) :=
  weaklyFair_of_step ((weaklyFair_rest rfl).2 rfl) rfl
theorem not_weaklyFair_unanswered : ¬ WeaklyFair (given [.host (.read 0x08)] busy40) := fun h =>
  nomatch (weaklyFair_rest rfl).1 (weaklyFair_step h rfl)
theorem witness_waitEndsOnlyByAnswerAndFairly :
    (∃ t, busy40.seq ≠ .waitNone ∧ step (given [.cipher (.err 0x5A)] busy40) = .next t ∧ t.seq = .waitNone) ∧
    (∃ t, busy40.seq ≠ .waitNone ∧ step (given [.reset] busy40) = .next t ∧ t.seq = .waitNone) ∧
    (∃ t, core.run 2 (given [.host (.write 0x0C 4)] busy40) = .next t ∧ busy40.seq ≠ .waitNone ∧
      ∀ e ∈ (given [.host (.write 0x0C 4)] busy40).inputs, isHostEvent e = true) ∧
    Inv (given [.cipher .ok] busy40) ∧ WeaklyFair (given [.cipher .ok] busy40) :=
  ⟨⟨_, by decide, rfl, rfl⟩, ⟨_, by decide, rfl, rfl⟩, ⟨_, rfl, by decide, by decide⟩, inv_busy _, weaklyFair_answered⟩

end Sys2Proof.Tests
end

/-! PROOFS. Reads and writes of the register window, and the two flags of STATUS (spec 10_state.md). First the facts about
the model's own functions, then the statements assembled from them. -/

namespace Sys2Proof.Machine

/-! ### The words CTRL and STATUS read -/

/-- The one bit of a flag. -/
theorem getLsbD_bit (b : Bool) (i : Nat) : (bit b).getLsbD i = (decide (i = 0) && b) := by
  cases b <;> simp [bit]

/-- Bit `i` of a CTRL read: KEYLEN in bits 5:0, IE in bit 8, 0 elsewhere (R23). -/
theorem getLsbD_ctrlWord (s : State) (i : Nat) :
    (ctrlWord s).getLsbD i = if i < 6 then s.keyLen.getLsbD i else decide (i = 8) && s.ie := by
  unfold ctrlWord
  simp only [BitVec.getLsbD_append, getLsbD_bit, BitVec.ofNat_eq_ofNat, BitVec.getLsbD_zero]
  by_cases hlen : i < 6
  · simp only [hlen, if_true]
  · by_cases hie : i = 8
    · simp [hie]
    · by_cases hgap : i - 6 < 2
      · simp [hlen, hie, hgap]
      · have hhigh : ¬ i - 6 - 2 < 1 := by omega
        simp [hlen, hie, hgap, hhigh]

/-- Bit `i` of a STATUS read, field by field from bit 0 up (R24). -/
theorem getLsbD_statusWord (s : State) (i : Nat) :
    (statusWord s).getLsbD i =
      if i = 0 then busy s
      else if i < 3 then (phaseCode s.phase).getLsbD (i - 1)
      else if i = 3 then s.lastComplete
      else if i = 4 then s.outValid
      else if i = 5 then s.cmdDrop
      else if i = 6 then s.ip
      else if i = 7 then false
      else (errCodeBits s.errCode).getLsbD (i - 8) := by
  unfold statusWord
  simp only [BitVec.getLsbD_append, getLsbD_bit]
  by_cases hlow : i < 8
  · interval_cases i <;> simp
  · simp only [Nat.sub_sub, Nat.reduceAdd]
    repeat rw [if_neg (by omega)]
    by_cases herr : i - 8 < 4
    · rw [if_pos herr]
      repeat rw [if_neg (by omega)]
    · rw [if_neg herr, BitVec.getLsbD_of_ge (errCodeBits s.errCode) _ (by omega)]
      repeat rw [if_neg (by omega)]
      exact BitVec.getLsbD_zero

/-- A field of a word is 0 when each of its bits is. -/
theorem extractLsb'_eq_zero {n : Nat} {w : BitVec n} {start len : Nat}
    (h : ∀ i, i < len → w.getLsbD (start + i) = false) : w.extractLsb' start len = 0 := by
  apply BitVec.eq_of_getLsbD_eq
  intro i hi
  rw [BitVec.getLsbD_extractLsb', h i hi]
  simp

/-- Bits 7:6 and 31:9 of CTRL are reserved and read 0 (R23, R41). -/
theorem ctrlWord_reserved (s : State) :
    (ctrlWord s).extractLsb' 6 2 = 0 ∧ (ctrlWord s).extractLsb' 9 23 = 0 := by
  constructor <;> apply extractLsb'_eq_zero <;> intro i hi <;> rw [getLsbD_ctrlWord, if_neg (by omega)]
  · simp [show 6 + i ≠ 8 by omega]
  · simp [show 9 + i ≠ 8 by omega]

/-- Bits 7 and 31:12 of STATUS are reserved and read 0 (R24, R41). -/
theorem statusWord_reserved (s : State) :
    (statusWord s).getLsbD 7 = false ∧ (statusWord s).extractLsb' 12 20 = 0 := by
  refine ⟨getLsbD_statusWord s 7, extractLsb'_eq_zero fun i hi => ?_⟩
  rw [getLsbD_statusWord]
  repeat rw [if_neg (by omega)]
  exact BitVec.getLsbD_of_ge _ _ (by omega)

/-! ### Writes without effect -/

/-- A 32-bit write at an aligned offset of the window is a write to that offset, with a normal response (R71, R77). -/
theorem busStep_write_window {off : Nat} (ha : off % 4 = 0) (hw : off < 0x80) (v : Word) (s : State) :
    busStep (.write (s.base + off) v) s = writeWindow off v (respondBus .writeDone s) := by
  have hin : inWindow s.base (s.base + off) = true := by simp [inWindow, Config.windowBytes, hw]
  simp [busStep, hin, offsetOf, aligned, ha]

/-- At a reserved offset there is no register, so it reads 0 and a write there changes nothing (R41). -/
theorem window_reserved {off : Nat} (h : off ∈ [0x2C, 0x30, 0x34, 0x38, 0x3C]) (v : Word) (s : State) :
    readWindow off s = 0 ∧ writeWindow off v s = .next s := by
  have hreg : ∀ off ∈ [0x2C, 0x30, 0x34, 0x38, 0x3C], regAt off = none := by decide
  simp only [readWindow, writeWindow, hreg off h, and_self]

/-- The registers a write to which is ignored (R41). -/
def readOnlyRegs : List Reg :=
  [.id, .errInfo, .nblkLo, .nblkHi, .blkIdxLo, .blkIdxHi, .out 0, .out 1, .out 2, .out 3]

/-- A write to a read-only register changes nothing. -/
theorem writeReg_readOnly {r : Reg} (h : r ∈ readOnlyRegs) (v : Word) (s : State) : writeReg r v s = .next s := by
  simp only [readOnlyRegs, List.mem_cons, List.not_mem_nil, or_false] at h
  rcases h with rfl | rfl | rfl | rfl | rfl | rfl | rfl | rfl | rfl | rfl <;> rfl

/-- A bus write to a read-only register gets a normal response and changes nothing else (R41). -/
theorem busStep_write_readOnly {r : Reg} (h : r ∈ readOnlyRegs) (v : Word) (s : State) :
    busStep (.write (s.base + regOffset r) v) s = .next { s with resp := .writeDone } :=
  (busStep_write_reg r v s).trans (writeReg_readOnly h v _)

/-! ### What keeps CMD_DROP -/

/-- A word that decodes to a command is that command's word (R92). -/
theorem eq_encode_of_decode {w : Word} {i : Instr} (h : decode w = .command i) : w = encode i := by
  have hrsvd : rsvdField w = 0 := by
    by_contra hr
    unfold decode at h
    rw [if_pos hr] at h
    cases h
  have hop : opField w = opcode i := by
    apply BitVec.eq_of_toNat_eq
    simp only [decode, hrsvd, ne_eq, not_true_eq_false, if_false] at h
    split at h <;> cases h <;> assumption
  have hfields : rsvdField w ++ opField w = w :=
    (BitVec.extractLsb'_append_extractLsb'_eq_extractLsb' (by rfl)).trans BitVec.extractLsb'_eq_self
  rw [← hfields, hrsvd, hop, encode]

/-- A command other than NOP is dropped while BUSY, and in ERROR unless it is CLEAR (R191). -/
theorem commandResult_eq_drop {i : Instr} {s : State} (hn : i ≠ .nop)
    (h : s.seq ≠ .waitNone ∨ s.phase = .error ∧ i ≠ .clear) : commandResult i s = drop s := by
  have hdrop : ∀ f, accept i f s = drop s := fun f => h.elim accept_busy fun ⟨he, hi⟩ => accept_error he hi
  cases i with
  | nop => exact absurd rfl hn
  | init | push | double | clear => exact hdrop _

/-- While BUSY every word but NOP's is dropped, and in ERROR every word but NOP's and CLEAR's (R191). -/
theorem acceptWord_eq_drop {w : Word} {s : State} (hw : w ≠ 0)
    (h : s.seq ≠ .waitNone ∨ s.phase = .error ∧ w ≠ 4) : acceptWord w s = .next (drop s) := by
  rw [acceptWord_eq]
  cases hd : decode w with
  | command i =>
    have hwi := eq_encode_of_decode hd
    have hn : i ≠ .nop := by rintro rfl; exact hw hwi
    have hc : w ≠ 4 → i ≠ .clear := by rintro h4 rfl; exact h4 hwi
    simp only [commandResult_eq_drop hn (h.imp_right fun ⟨he, h4⟩ => ⟨he, hc h4⟩)]
  | illegal why =>
    rcases rejectWord_cases w s with ⟨hr, -⟩ | ⟨-, hb, he⟩
    · simp only [hr]
    · exact absurd h (by simp [hb, he])

/-- INIT's execute step leaves CMD_DROP as it was. -/
@[simp] theorem initBody_cmdDrop (s : State) : (initBody s).cmdDrop = s.cmdDrop := by
  rcases initBody_cases s with ⟨-, h⟩ | ⟨-, h⟩ <;> rw [h] <;> rfl

/-- PUSH's execute step leaves CMD_DROP as it was. -/
@[simp] theorem pushBody_cmdDrop (s : State) : (pushBody s).cmdDrop = s.cmdDrop := by
  rcases pushBody_cases s with ⟨-, h⟩ | ⟨-, h⟩ <;> rw [h] <;> rfl

/-- DOUBLE's execute step leaves CMD_DROP as it was. -/
@[simp] theorem doubleBody_cmdDrop (s : State) : (doubleBody s).cmdDrop = s.cmdDrop := rfl

/-- Acceptance keeps CMD_DROP set when the execute step does: a drop sets it and an error leaves it (R191, R246). -/
theorem accept_keeps_cmdDrop {i : Instr} {f : State → State} {s : State} (hf : (f s).cmdDrop = s.cmdDrop)
    (h : s.cmdDrop = true) : (accept i f s).cmdDrop = true := by
  rcases accept_cases i f s with ⟨ha, -⟩ | ⟨ha, -⟩ | ⟨ha, -⟩ <;> rw [ha]
  · rfl
  · rw [hf, h]
  · exact h

/-- Every command but CLEAR keeps CMD_DROP set. -/
theorem commandResult_keeps_cmdDrop {i : Instr} {s : State} (hi : i ≠ .clear) (h : s.cmdDrop = true) :
    (commandResult i s).cmdDrop = true := by
  cases i with
  | nop => exact h
  | init => exact accept_keeps_cmdDrop (initBody_cmdDrop s) h
  | push => exact accept_keeps_cmdDrop (pushBody_cmdDrop s) h
  | double => exact accept_keeps_cmdDrop (doubleBody_cmdDrop s) h
  | clear => exact absurd rfl hi

/-- Rejecting an illegal word keeps CMD_DROP set. -/
theorem rejectWord_keeps_cmdDrop {w : Word} {s : State} (h : s.cmdDrop = true) :
    (rejectWord w s).cmdDrop = true := by
  rcases rejectWord_cases w s with ⟨hr, -⟩ | ⟨hr, -⟩ <;> rw [hr]
  · rfl
  · exact h

/-- Every word but CLEAR's, written to CMD, keeps CMD_DROP set. -/
theorem acceptWord_keeps_cmdDrop {w : Word} {s t : State} (hw : w ≠ 4) (h : s.cmdDrop = true)
    (ht : acceptWord w s = .next t) : t.cmdDrop = true := by
  rw [acceptWord_eq, Host.Outcome.next.injEq] at ht
  subst ht
  cases hd : decode w with
  | command i =>
    have hi : i ≠ .clear := by rintro rfl; exact hw (eq_encode_of_decode hd)
    exact commandResult_keeps_cmdDrop hi h
  | illegal why => exact rejectWord_keeps_cmdDrop h

/-- A write to a register that is neither STATUS nor CMD leaves CMD_DROP as it was (R77). -/
theorem registerWritten_cmdDrop {r : Reg} (hr : r ≠ .status) (v : Word) (s : State) :
    (registerWritten r v s).cmdDrop = s.cmdDrop := by
  cases r with
  | status => exact absurd rfl hr
  | _ => rfl

/-- A WAIT_L response leaves CMD_DROP as it was, whether or not the message is empty (R203). -/
@[simp] theorem finishSubkeys_cmdDrop (l : Block) (s : State) : (finishSubkeys l s).cmdDrop = s.cmdDrop := by
  unfold finishSubkeys
  by_cases hempty : s.lenS = 0
  · simp only [if_pos hempty, issue_cmdDrop]
  · simp only [if_neg hempty, complete_cmdDrop]

/-- An Ok response leaves CMD_DROP as it was (R203 to R205). -/
theorem responseResult_cmdDrop (c : Block) (s : State) : (responseResult c s).cmdDrop = s.cmdDrop := by
  cases hseq : s.seq with
  | waitL => simp [responseResult, hseq]
  | waitChain => simp [responseResult, hseq, finishChain]
  | waitTag => simp [responseResult, hseq, finishTag]
  | waitNone => simp [responseResult, hseq]

/-- A cipher step leaves CMD_DROP as it was. -/
theorem cipherStep_cmdDrop {r : CipherAnswer} {s t : State} (h : cipherStep r s = .next t) :
    t.cmdDrop = s.cmdDrop := by
  rcases cipherStep_cases h with ⟨req, -, -, -, rfl⟩ | ⟨req, c, -, -, -, rfl⟩
  · exact responseResult_cmdDrop _ s
  · rfl

/-- A bus access that clears CMD_DROP writes CLEAR's word to CMD, or a word with bit 5 set to STATUS (R29). -/
theorem busStep_clears_cmdDrop {a : BusAccess} {s t : State} (h : busStep a s = .next t) (hs : s.cmdDrop = true)
    (ht : t.cmdDrop = false) :
    a = .write (s.base + 0x0C) 4 ∨ ∃ v, a = .write (s.base + 0x08) v ∧ v.getLsbD 5 = true := by
  rcases busStep_cases a s with ⟨r, hr⟩ | ⟨r, v, -, ha, hr⟩ | ⟨w, ha, hr⟩ <;>
    rw [hr] at h
  · cases h
    simp [hs] at ht
  · cases h
    by_cases hst : r = .status
    · subst hst
      have hv : (s.cmdDrop && !v.getLsbD 5) = false := ht
      exact .inr ⟨v, ha, by simpa [hs] using hv⟩
    · simp [registerWritten_cmdDrop hst, hs] at ht
  · by_cases hw : w = 4
    · exact .inl (hw ▸ ha)
    · have hkept := acceptWord_keeps_cmdDrop (s := respondBus .writeDone s) hw hs h
      simp [hkept] at ht

/-! ### The statements -/

/-- Settles O24: the two bits of the mask, each clearing its flag. -/
theorem statusWriteClearsFlags : Obligations.StatusWriteClearsFlags := by
  intro v s
  have hflag : ∀ flag mask : Bool, (flag && !mask) = if mask then false else flag := by decide
  simp only [writeReg, writeStatus, hflag]

/-- Settles O25: a step that clears CMD_DROP is traced back to the one event that can do it. -/
theorem cmdDropIsSticky : Obligations.CmdDropIsSticky := by
  refine ⟨fun w s hw h => ⟨drop s, acceptWord_eq_drop hw h, rfl⟩,
    fun v s => ⟨_, statusWriteClearsFlags v s, rfl⟩, fun s hb => ⟨clearAll s, ?_, rfl⟩, fun s t h hs ht => ?_⟩
  · rw [exec_eq]
    exact congrArg _ (accept_legal hb (fun _ => rfl) rfl)
  · rcases step_cases h with ⟨-, rfl⟩ | ⟨a, rest, hi, hbus⟩ | ⟨r, rest, -, hc⟩ | ⟨rest, hi, -⟩
    · simp [hs] at ht
    · rcases busStep_clears_cmdDrop hbus hs ht with rfl | ⟨v, rfl, hv⟩
      · exact .inr (.inl ⟨rest, hi⟩)
      · exact .inr (.inr ⟨v, rest, hi, hv⟩)
    · rw [cipherStep_cmdDrop hc] at ht
      simp [hs] at ht
    · exact .inl ⟨rest, hi⟩

/-- Settles O27: a reserved offset has no register, a read-only register ignores its write, and the reserved bits of CTRL
and STATUS are neither used by a write nor set in a read. -/
theorem reservedAndReadOnlyIgnoreWrites : Obligations.ReservedAndReadOnlyIgnoreWrites := by
  refine ⟨fun off v s h => ?_, fun off v s h => ?_, fun v v' s hlen hie => ?_, fun v v' s h5 h6 => ?_, fun s => ?_⟩
  · obtain ⟨hread, hwrite⟩ := window_reserved h v s
    have hoff : ∀ off ∈ [0x2C, 0x30, 0x34, 0x38, 0x3C], off % 4 = 0 ∧ off < 0x80 := by decide
    obtain ⟨ha, hw⟩ := hoff off h
    exact ⟨hread, hwrite, (busStep_write_window ha hw v s).trans (window_reserved h v _).2⟩
  · obtain ⟨r, hr, rfl⟩ : ∃ r ∈ readOnlyRegs, regOffset r = off := List.mem_map.1 h
    exact busStep_write_readOnly hr v s
  · simp only [writeReg, writeCtrl, hlen, hie]
  · simp only [writeReg, writeStatus, h5, h6]
  · obtain ⟨hlow, hhigh⟩ := ctrlWord_reserved s
    obtain ⟨h7, htop⟩ := statusWord_reserved s
    exact ⟨hlow, hhigh, h7, htop⟩

/-- Settles O28: offset 0 is the read-only register ID. -/
theorem idReadsConstant : Obligations.IdReadsConstant := fun s =>
  ⟨busStep_read_reg .id s, fun v => busStep_write_readOnly (r := .id) (by decide) v s⟩

/-- Settles O35: a CTRL write puts its bit 8 in IE and keeps IP. -/
theorem irqIsEnableAndPending : Obligations.IrqIsEnableAndPending :=
  ⟨fun _ => rfl, fun v s => ⟨writeCtrl v s, rfl, writeCtrl_ip s v, rfl⟩⟩

/-- Settles O43: `State.reset` is a closed value, compared field by field. -/
theorem resetMatchesTable : Obligations.ResetMatchesTable := by
  unfold Obligations.ResetMatchesTable
  decide

end Sys2Proof.Machine

/-! PROOFS. The illegal command words (spec 30_encoding.md R93; 44_commands.md R191, R192). -/

namespace Sys2Proof.Machine

/-! ### Which words are illegal -/

/-- A word is illegal exactly when it is the word of no command (R93). -/
theorem exists_illegal_iff_ne_encode (w : Word) : (∃ why, decode w = .illegal why) ↔ ∀ i, w ≠ encode i := by
  constructor
  · rintro ⟨why, hd⟩ i rfl
    cases hd.symm.trans (decode_encode i)
  · intro hne
    cases hd : decode w with
    | command i => exact absurd (eq_encode_of_decode hd) (hne i)
    | illegal why => exact ⟨why, rfl⟩

/-- A property of every command, spelled out in the order of the opcodes. -/
theorem forall_instr_iff (p : Instr → Prop) : (∀ i, p i) ↔ p .nop ∧ p .init ∧ p .push ∧ p .double ∧ p .clear := by
  refine ⟨fun h => ⟨h _, h _, h _, h _, h _⟩, fun ⟨hnop, hinit, hpush, hdouble, hclear⟩ i => ?_⟩
  cases i <;> assumption

/-- A word is illegal exactly when its opcode is reserved or a reserved bit is set (R93). -/
theorem exists_illegal_iff_fields (w : Word) :
    (∃ why, decode w = .illegal why) ↔ 5 ≤ (opField w).toNat ∨ rsvdField w ≠ 0 := by
  unfold decode
  split
  case isTrue hrsvd => exact iff_of_true ⟨_, rfl⟩ (.inr hrsvd)
  case isFalse hrsvd =>
    split
    case h_6 =>
      simp only [imp_false] at *
      exact iff_of_true ⟨_, rfl⟩ (.inl (by omega))
    all_goals
      rename_i hop
      exact iff_of_false (by rintro ⟨why, ⟨⟩⟩) (not_or.2 ⟨by omega, hrsvd⟩)

/-! ### What an illegal word does -/

/-- An illegal word is rejected (R190). -/
theorem acceptWord_illegal {w : Word} {why : IllegalWord} (hd : decode w = .illegal why) (s : State) :
    acceptWord w s = .next (rejectWord w s) := by
  simp only [acceptWord_eq, hd]

/-- Rejection, by whether the core is BUSY or in ERROR (R191, R192). -/
theorem rejectWord_eq (w : Word) (s : State) :
    rejectWord w s = if s.seq ≠ .waitNone ∨ s.phase = .error then drop s else raise (.illegalCommand w) s := by
  rcases rejectWord_cases w s with ⟨hr, hdrop⟩ | ⟨hr, hb, he⟩
  · rw [hr, if_pos hdrop]
  · rw [hr, if_neg (by simp [hb, he])]

/-- Settles O3: the two descriptions of the illegal words, then drop or ILLEGAL_COMMAND. -/
theorem illegalWordsRaiseOrDrop : Obligations.IllegalWordsRaiseOrDrop := by
  intro w
  refine ⟨exists_illegal_iff_fields w, ?_, fun s why hd => ?_⟩
  · rw [exists_illegal_iff_ne_encode, forall_instr_iff]
    rfl
  · rw [acceptWord_illegal hd, rejectWord_eq, apply_ite Host.Outcome.next]
    rfl

end Sys2Proof.Machine

/-! PROOFS. Doubling byte by byte, with the carries between the bytes written out (spec 40_subkey_generator.md R111). -/

namespace Sys2Proof.Machine

/-! ### Bytes of shifted and combined values -/

/-- Byte views commute with exclusive or. -/
theorem byteAt_xor {n : Nat} (v w : BitVec n) (j : Nat) : byteAt (v ^^^ w) j = byteAt v j ^^^ byteAt w j :=
  BitVec.extractLsb'_xor

/-- The bytes of the constant Rb (R112). -/
theorem byteAt_rb (j : Nat) (hj : j < 16) : byteAt rb j = if j = 15 then 0x87 else 0 := by
  interval_cases j <;> decide

/-- The bytes of a block shifted left by one: R111's carry chain, before the constant is applied. Bit 0 of a byte other
than the last is the carry out of the next byte; every other bit stays within its byte. -/
theorem byteAt_shiftLeft_one (b : Block) (j : Nat) (hj : j < 16) : byteAt (b <<< 1) j = shiftedByte b j := by
  refine BitVec.eq_of_getLsbD_eq fun i hi => ?_
  unfold shiftedByte
  split
  case isTrue hlast =>
    subst hlast
    simp only [getLsbD_byteAt, BitVec.getLsbD_shiftLeft]
    grind
  case isFalse hlast =>
    simp only [getLsbD_byteAt, BitVec.getLsbD_or, BitVec.getLsbD_shiftLeft, BitVec.getLsbD_ushiftRight]
    cases i with
    | zero =>
      have hcarry : 128 - 8 - 8 * j + 0 - 1 = 128 - 8 - 8 * (j + 1) + 7 := by omega
      grind
    | succ i =>
      have hnoCarry : ¬ 7 + (i + 1) < 8 := by omega
      grind

/-- R111's test of the first byte reads the top bit of the block, which is R110's test. -/
theorem byteAt_zero_and_0x80_ne_zero_iff (b : Block) : byteAt b 0 &&& 0x80 ≠ 0 ↔ b.getLsbD 127 := by
  have htop : (byteAt b 0).getLsbD 7 = b.getLsbD 127 := getLsbD_byteAt b 0 7
  have hmask : byteAt b 0 &&& 0x80 = if b.getLsbD 127 then 0x80 else 0 := htop ▸ BitVec.and_twoPow (byteAt b 0) 7
  rw [hmask]
  cases b.getLsbD 127 <;> decide

/-! ### Bytes of a doubled block -/

/-- Byte `j` of a doubled block: the shifted byte, with Rb's `0x87` added on byte 15 when the top bit was set. -/
theorem byteAt_dbl (b : Block) (j : Nat) (hj : j < 16) :
    byteAt (dbl b) j =
      if j = 15 ∧ byteAt b 0 &&& 0x80 ≠ 0 then shiftedByte b j ^^^ 0x87 else shiftedByte b j := by
  simp only [byteAt_zero_and_0x80_ne_zero_iff]
  unfold dbl
  split
  case isTrue htop =>
    rw [byteAt_xor, byteAt_shiftLeft_one b j hj, byteAt_rb j hj]
    by_cases hlast : j = 15 <;> simp [hlast, htop, -BitVec.getLsbD_eq_getElem]
  case isFalse htop => rw [byteAt_shiftLeft_one b j hj, if_neg fun h => htop h.2]

/-- Settles O36: the bytes of a doubled block, those before the last and the last. -/
theorem dblByteForm : Obligations.DblByteForm := by
  refine fun b => ⟨fun j hj => ?_, ?_⟩
  · have hlast : j ≠ 15 := by omega
    simp [byteAt_dbl b j (by omega), shiftedByte, hlast]
  · simp [byteAt_dbl b 15, shiftedByte]

end Sys2Proof.Machine

/-! PROOFS. The message block segmenter: the block count, the padded last block, and the tag request that depends only on
the message (spec 41_segmenter.md). -/

namespace Sys2Proof.Machine

/-! ### The block classes -/

/-- The empty message has one incomplete block, with no byte in it (R130). -/
theorem classify_zero : classify 0 = ⟨1, false, 0⟩ := rfl

/-- The mask 15 keeps a length modulo 16. -/
theorem toNat_and_fifteen (n : BitVec 64) : (n &&& 15).toNat = n.toNat % 16 :=
  Nat.and_two_pow_sub_one_eq_mod n.toNat 4

/-- The mask 15 gives 0 exactly at the multiples of 16. -/
theorem and_fifteen_eq_zero_iff (n : BitVec 64) : n &&& 15 = 0 ↔ n.toNat % 16 = 0 := by
  rw [← BitVec.toNat_inj, toNat_and_fifteen]
  rfl

/-- A nonempty message of `n` bytes has `ceil(n / 16)` blocks: whether or not a remainder adds one to the shifted length,
the 64-bit sum does not wrap (R131). -/
theorem toNat_blockCount_classify {n : BitVec 64} (hn : n ≠ 0) :
    (classify n).blockCount.toNat = (n.toNat + 15) / 16 := by
  have hlt := n.isLt
  have hshift : (n >>> 4).toNat = n.toNat / 16 :=
    Nat.shiftRight_eq_div_pow n.toNat 4
  have hcarry : (if n &&& 15 ≠ 0 then (1 : BitVec 64) else 0).toNat = if n.toNat % 16 = 0 then 0 else 1 := by
    simp only [ne_eq, and_fifteen_eq_zero_iff, ite_not]
    split <;> rfl
  rw [classify, if_neg hn, BitVec.toNat_add, hshift, hcarry]
  by_cases hrem : n.toNat % 16 = 0
  · rw [if_pos hrem]
    omega
  · rw [if_neg hrem]
    omega

/-- The last block is complete exactly when the message is nonempty and a multiple of 16 bytes long (R130). -/
theorem lastComplete_classify_iff (n : BitVec 64) :
    (classify n).lastComplete = true ↔ n ≠ 0 ∧ n.toNat % 16 = 0 := by
  unfold classify
  split
  case isTrue hempty => simp [hempty]
  case isFalse hn => rw [beq_iff_eq, and_fifteen_eq_zero_iff, and_iff_right hn]

/-- The remainder is the length modulo 16 (R130). -/
theorem toNat_rem_classify (n : BitVec 64) : (classify n).rem.toNat = n.toNat % 16 := by
  unfold classify
  split
  case isTrue hempty => simp [hempty]
  case isFalse hn => simp

/-- Settles O39: the count of a nonempty message is its length divided by 16, rounded up, which a 64-bit length keeps at
most 2^60; the empty message has its own case. -/
theorem classifyCountsBlocks : Obligations.ClassifyCountsBlocks := by
  refine ⟨⟨classify_zero, by decide⟩, fun n =>
    ⟨toNat_blockCount_classify, lastComplete_classify_iff n, toNat_rem_classify n, ?_⟩⟩
  rw [lastComplete_classify_iff]
  by_cases hn : n = 0
  · subst hn
    decide
  · have hlt := n.isLt
    have hpos : n.toNat ≠ 0 := fun h => hn (BitVec.eq_of_toNat_eq h)
    rw [toNat_blockCount_classify hn]
    refine ⟨by omega, by omega, by omega, fun htop => ⟨by omega, hn, by omega⟩⟩

/-! ### The padded last block -/

/-- Byte `j` of a padded block: the data's below `r`, `0x80` at `r`, and 0 above (R133). -/
theorem byteAt_pad (d : Block) (r : BitVec 4) {j : Nat} (hj : j < 16) :
    byteAt (pad d r) j = if j < r.toNat then byteAt d j else if j = r.toNat then 0x80 else 0x00 := by
  have hr := r.isLt
  have hdata : ((bytesOf d).take r.toNat).length = r.toNat := by
    rw [List.length_take, bytesOf_length]
    omega
  have hlen : ((bytesOf d).take r.toNat ++ 0x80 :: List.replicate (15 - r.toNat) 0).length = 16 := by
    rw [List.length_append, hdata, List.length_cons, List.length_replicate]
    omega
  rw [pad, byteAt_ofBytes _ _ (by rw [hlen]) _ (by rw [hlen]; exact hj)]
  by_cases hbelow : j < r.toNat
  · rw [if_pos hbelow, List.getElem_append_left (by rw [hdata]; exact hbelow), List.getElem_take, bytesOf_getElem]
  · rw [if_neg hbelow, List.getElem_append_right (by rw [hdata]; omega), List.getElem_cons]
    simp only [hdata, List.getElem_replicate]
    by_cases hat : j = r.toNat
    · rw [if_pos hat, dif_pos (by omega)]
    · rw [if_neg hat, dif_neg (by omega)]

/-- Settles O40, by the place of `j` in the three parts `pad` appends. -/
theorem padLaysOutBytes : Obligations.PadLaysOutBytes := fun d r _ hj => byteAt_pad d r hj

/-- Blocks that agree on their first `r` bytes are padded to the same block. -/
theorem pad_congr {d d' : Block} {r : BitVec 4} (h : ∀ j, j < r.toNat → byteAt d j = byteAt d' j) :
    pad d r = pad d' r := by
  refine eq_of_byteAt rfl _ _ fun j hj => ?_
  rw [byteAt_pad d r hj, byteAt_pad d' r hj]
  by_cases hbelow : j < r.toNat
  · rw [if_pos hbelow, if_pos hbelow, h j hbelow]
  · rw [if_neg hbelow, if_neg hbelow]

/-! ### The tag request of an incomplete last block -/

/-- PUSH of an incomplete last block asks for the cipher of the padded block, combined with K2, and waits for the tag
(R200). -/
theorem exec_push_incomplete {s : State} (hb : s.seq = .waitNone) (hopen : s.phase = .absorb)
    (hlast : ¬ s.blkIdx.toNat + 1 < s.nblk.toNat) (hinc : s.lastComplete = false) :
    exec .push s =
      .next (issue s.keyS (combineInput s.x (pad s.dataB s.remS) false s.k1 s.k2) .waitTag s) := by
  have hbody : commandResult .push s = pushBody s := accept_legal hb (by simp [hopen]) (by rw [hopen]; rfl)
  rw [exec_eq, hbody]
  rcases pushBody_cases s with ⟨hmore, -⟩ | ⟨-, hissue⟩
  · exact absurd hmore hlast
  · rw [hissue, hinc]
    rfl

/-- Settles O41: the request names DATAB only through `pad`, which reads no byte from the remainder on. -/
theorem pushIgnoresBytesBeyondRemainder : Obligations.PushIgnoresBytesBeyondRemainder := by
  intro s d hb hopen hlast hinc hagree
  refine ⟨⟨s.keyS, combineInput s.x (pad s.dataB s.remS) false s.k1 s.k2⟩,
    exec_push_incomplete hb hopen hlast hinc, ?_⟩
  rw [← pad_congr hagree]
  exact exec_push_incomplete (s := { s with dataB := d }) hb hopen hlast hinc

end Sys2Proof.Machine

/-! PROOFS. What the commands do once accepted, and what the core does with an Ok response (spec 44_commands.md). First
what acceptance and the cipher step come to in each case, then the statements assembled from that. -/

namespace Sys2Proof.Machine

/-! ### Acceptance of a command -/

/-- A command's own word, written to CMD, runs that command (R92, R190). -/
theorem acceptWord_encode (i : Instr) (s : State) : acceptWord (encode i) s = exec i s := by
  simp only [acceptWord, decode_encode]

/-- NOP answers the state it was given (R195). -/
theorem exec_nop (s : State) : exec .nop s = .next s := exec_eq .nop s

/-- A set reserved bit makes a word illegal whatever its opcode (R93). -/
theorem decode_of_rsvdField_ne_zero {w : Word} (h : rsvdField w ≠ 0) : decode w = .illegal .reservedBits :=
  if_pos h

/-- Outside ERROR the only illegal pairs are those of PUSH with a phase other than ABSORB (R193). -/
theorem legalIn_of_ne_error {i : Instr} {p : Phase} (he : p ≠ .error) (hpush : i = .push → p = .absorb) :
    legalIn i p = true := by
  cases i with
  | nop | clear => rfl
  | init | double =>
    cases p with
    | error => exact absurd rfl he
    | idle | absorb | done => rfl
  | push => rw [hpush rfl]; rfl

/-- `accept` of a command other than PUSH runs its execute step in every phase but ERROR (R193). -/
theorem accept_of_ne_error {i : Instr} {f : State → State} {s : State} (hi : i ≠ .push) (hb : s.seq = .waitNone)
    (he : s.phase ≠ .error) : accept i f s = f s :=
  accept_legal hb (fun h => absurd h he) (legalIn_of_ne_error he fun h => absurd h hi)

/-- `accept` of a command illegal in the phase raises SEQUENCE_ERROR (R193, R244). -/
theorem accept_illegal {i : Instr} {f : State → State} {s : State} (hb : s.seq = .waitNone) (he : s.phase ≠ .error)
    (hl : legalIn i s.phase = false) : accept i f s = raise (.sequenceError (opcode i) s.phase) s := by
  simp [accept, busy, hb, he, hl]

/-- INIT runs its execute step in every phase but ERROR. -/
theorem exec_init {s : State} (hb : s.seq = .waitNone) (he : s.phase ≠ .error) :
    exec .init s = .next (initBody s) :=
  congrArg _ (accept_of_ne_error (by decide) hb he)

/-- PUSH runs its execute step in ABSORB. -/
theorem exec_push_absorb {s : State} (hb : s.seq = .waitNone) (hopen : s.phase = .absorb) :
    exec .push s = .next (pushBody s) :=
  congrArg _ (accept_legal hb (by simp [hopen]) (by rw [hopen]; rfl))

/-- PUSH with no message open raises SEQUENCE_ERROR. -/
theorem exec_push_closed {s : State} (hb : s.seq = .waitNone) (hclosed : s.phase = .idle ∨ s.phase = .done) :
    exec .push s = .next (raise (.sequenceError 2 s.phase) s) :=
  congrArg _ (accept_illegal hb (by rcases hclosed with h | h <;> simp [h])
    (by rcases hclosed with h | h <;> rw [h] <;> rfl))

/-- DOUBLE runs its execute step in every phase but ERROR. -/
theorem exec_double {s : State} (hb : s.seq = .waitNone) (he : s.phase ≠ .error) :
    exec .double s = .next (doubleBody s) :=
  congrArg _ (accept_of_ne_error (by decide) hb he)

/-- CLEAR runs its execute step in every phase (R193). -/
theorem exec_clear {s : State} (hb : s.seq = .waitNone) : exec .clear s = .next (clearAll s) :=
  congrArg _ (accept_legal hb (fun _ => rfl) rfl)

/-- A command other than NOP is dropped while BUSY, and in ERROR unless it is CLEAR (R191). -/
theorem exec_drop {i : Instr} {s : State} (hn : i ≠ .nop) (h : s.seq ≠ .waitNone ∨ s.phase = .error ∧ i ≠ .clear) :
    exec i s = .next (drop s) := by
  rw [exec_eq, commandResult_eq_drop hn h]

/-- ERR_INFO of a PUSH with no message open: OP 2, with PHASE in bits 9:8 (R244). -/
theorem errorInfo_push_closed {p : Phase} (hclosed : p = .idle ∨ p = .done) :
    errorInfo (.sequenceError 2 p) = if p = .idle then 0x002 else 0x202 := by
  rcases hclosed with rfl | rfl <;> decide

/-- STATUS of a cleared core that is not BUSY: every field is 0 (R214). -/
theorem statusWord_clearAll {s : State} (hb : s.seq = .waitNone) : statusWord (clearAll s) = 0 := by
  have hnotBusy : busy (clearAll s) = false := by simp [busy, hb]
  simp only [statusWord, hnotBusy, clearAll_errCode, clearAll_ip, clearAll_cmdDrop, clearAll_outValid,
    clearAll_lastComplete, clearAll_phase]
  decide

/-! ### An Ok response -/

/-- An Ok step of the cipher agent answers the pending request with its block under the cipher (R51). -/
theorem cipherStep_ok {s : State} {req : CipherRequest} (hp : s.pending = some req) :
    cipherStep .ok s = respondOk (Config.encryptBlock req.key req.block) s := by
  simp only [cipherStep, hp]

/-- An awaited Ok response never stops the core (R202). -/
theorem respondOk_eq {s : State} (c : Block) (h : s.seq ≠ .waitNone) :
    respondOk c s = .next (responseResult c s) := by
  cases hq : s.seq with
  | waitNone => exact absurd hq h
  | waitL | waitChain | waitTag => simp only [respondOk, responseResult, hq]

/-- The response awaited in WAIT_L finishes the subkeys (R203). -/
theorem cipherStep_ok_waitL {s : State} {req : CipherRequest} (hq : s.seq = .waitL) (hp : s.pending = some req) :
    cipherStep .ok s =
      .next (finishSubkeys (Config.encryptBlock req.key req.block) { s with pending := none }) := by
  rw [cipherStep_ok hp, respondOk_eq _ (by simp [hq]), responseResult, hq]

/-- The response awaited in WAIT_TAG finishes the tag (R205). -/
theorem cipherStep_ok_waitTag {s : State} {req : CipherRequest} (hq : s.seq = .waitTag) (hp : s.pending = some req) :
    cipherStep .ok s =
      .next (finishTag (Config.encryptBlock req.key req.block) { s with pending := none }) := by
  rw [cipherStep_ok hp, respondOk_eq _ (by simp [hq]), responseResult, hq]

/-- The empty message's one block, padded (R133, R203). -/
theorem pad_zero_zero : pad 0 0 = 0x80000000000000000000000000000000 := by decide

/-- The end of INIT by whether the message is empty (R203): the tag request of the padded empty block, or completion. -/
theorem finishSubkeys_eq (l : Block) (s : State) :
    finishSubkeys l s =
      if s.lenS = 0 then
        issue s.keyS ((0x80000000000000000000000000000000 ^^^ dbl (dbl l)) ^^^ s.x) .waitTag
          { s with k1 := dbl l, k2 := dbl (dbl l) }
      else complete { s with k1 := dbl l, k2 := dbl (dbl l) } := by
  rw [← pad_zero_zero]
  rfl

/-! ### The statements -/

/-- Settles O6: a drop is the whole effect. -/
theorem droppedWordsOnlySetCmdDrop : Obligations.DroppedWordsOnlySetCmdDrop := fun _ _ => acceptWord_eq_drop

/-- Settles O7: each clause is one outcome of acceptance. -/
theorem phaseLegalityTable : Obligations.PhaseLegalityTable := by
  refine fun s hb => ⟨exec_init hb, exec_push_absorb hb, fun hclosed => ?_, exec_double hb, exec_clear hb,
    fun he i hi => ?_⟩
  · rw [exec_push_closed hb hclosed, ← errorInfo_push_closed hclosed]
    rfl
  · have hcmd : i ≠ .nop ∧ i ≠ .clear := by rcases hi with rfl | rfl | rfl <;> decide
    obtain ⟨hnop, hclear⟩ := hcmd
    exact exec_drop hnop (.inr ⟨he, hclear⟩)

/-- Settles O8: NOP's word is 0, and a reserved bit makes another word of the same opcode illegal. -/
theorem nopChangesNothing : Obligations.NopChangesNothing := by
  refine ⟨by decide, fun s => ⟨exec_nop s, ?_⟩, fun w _ hrsvd => ?_⟩
  · exact (acceptWord_encode .nop s).trans (exec_nop s)
  · have hd : decode w = .illegal .reservedBits := decode_of_rsvdField_ne_zero hrsvd
    exact ⟨hd, acceptWord_illegal hd⟩

/-- Settles O13: DOUBLE runs outside ERROR and is dropped in it. -/
theorem doubleWritesDoubledBlock : Obligations.DoubleWritesDoubledBlock :=
  ⟨by decide, fun _ => exec_double, fun _ he => exec_drop (by decide) (.inr ⟨he, by decide⟩), by decide⟩

/-- Settles O14: CLEAR runs in every phase, and only BUSY drops it. -/
theorem clearReturnsToIdle : Obligations.ClearReturnsToIdle := by
  refine ⟨by decide, fun s => exec_clear, fun s hb t ht => ?_, fun s hb => exec_drop (by decide) (.inl hb)⟩
  cases (exec_clear hb).symm.trans ht
  exact statusWord_clearAll hb

/-- Settles O15: the response is `L`, the cipher of the zero block, and the message is empty or not. -/
theorem subkeyResponseDerivesSubkeys : Obligations.SubkeyResponseDerivesSubkeys := by
  intro s hq hp
  rw [cipherStep_ok_waitL hq hp, finishSubkeys_eq, apply_ite Host.Outcome.next]
  rfl

/-- Settles O17: the counter cannot wrap, because NBLK is a 64-bit value. -/
theorem tagResponseClosesMessage : Obligations.TagResponseClosesMessage := by
  refine fun s k b hq hp => ⟨cipherStep_ok_waitTag hq hp, fun hlast => ?_⟩
  have hfits : s.blkIdx.toNat + 1 < 2 ^ 64 := hlast ▸ s.nblk.isLt
  exact BitVec.eq_of_toNat_eq ((BitVec.toNat_add_of_lt hfits).trans hlast)

end Sys2Proof.Machine

/-! PROOFS. The entry to ERROR, and what ERR_CODE and ERR_INFO record there (spec 60_exceptions.md R240, R241, R243, R246).
First the codes, the fields and the failed response, then the statements assembled from them. -/

namespace Sys2Proof.Machine

/-! ### ERR_CODE and ERR_INFO -/

/-- Only NONE has code 0 (R240). -/
theorem errCodeBits_eq_zero_iff (c : ErrCode) : errCodeBits c = 0 ↔ c = .noError := by
  cases c <;> decide

/-- Above KEYLEN, ERR_INFO of INVALID_KEY_LENGTH is the mask of the accepted lengths, for every KEYLEN (R241). -/
theorem extractLsb'_errorInfo_invalidKeyLength {start len : Nat} (kl : BitVec 6) (h : 6 ≤ start) :
    (errorInfo (.invalidKeyLength kl)).extractLsb' start len =
      ((0 : BitVec 13) ++ (7 : BitVec 3) ++ (0 : BitVec 10)).extractLsb' (start - 6) len :=
  BitVec.extractLsb'_append_eq_of_le h

/-- ERR_INFO of CIPHER_FAULT is 24 zero bits above the cipher's code (R241). -/
theorem errorInfo_cipherFault (c : Byte) : errorInfo (.cipherFault c) = (0 : BitVec 24) ++ c :=
  BitVec.setWidth_eq_append (by decide)

/-- Above OP, ERR_INFO of SEQUENCE_ERROR depends on the phase alone (R241). -/
theorem extractLsb'_errorInfo_sequenceError {start len : Nat} (op : BitVec 4) (ph : Phase) (h : 4 ≤ start) :
    (errorInfo (.sequenceError op ph)).extractLsb' start len =
      ((0 : BitVec 22) ++ phaseCode ph ++ (0 : BitVec 4)).extractLsb' (start - 4) len :=
  BitVec.extractLsb'_append_eq_of_le h

/-- The fields of ERR_INFO of INVALID_KEY_LENGTH (R241). -/
theorem errorInfo_invalidKeyLength_fields (kl : BitVec 6) : let w := errorInfo (.invalidKeyLength kl)
    w.extractLsb' 0 6 = kl ∧ w.extractLsb' 6 10 = 0 ∧ w.extractLsb' 16 3 = 0b111 ∧ w.extractLsb' 19 13 = 0 := by
  refine ⟨BitVec.extractLsb'_append_eq_right, ?_, ?_, ?_⟩ <;>
    rw [extractLsb'_errorInfo_invalidKeyLength kl (by decide)] <;> decide

/-- The fields of ERR_INFO of SEQUENCE_ERROR (R241). -/
theorem errorInfo_sequenceError_fields (op : BitVec 4) (ph : Phase) : let w := errorInfo (.sequenceError op ph)
    w.extractLsb' 0 4 = op ∧ w.extractLsb' 4 4 = 0 ∧ w.extractLsb' 8 2 = phaseCode ph ∧ w.extractLsb' 10 22 = 0 := by
  refine ⟨BitVec.extractLsb'_append_eq_right, ?_, ?_, ?_⟩ <;>
    rw [extractLsb'_errorInfo_sequenceError op ph (by decide)]
  · exact BitVec.extractLsb'_append_eq_right
  · exact (BitVec.extractLsb'_append_eq_of_le (by decide)).trans BitVec.extractLsb'_append_eq_right
  · exact (BitVec.extractLsb'_append_eq_of_le (by decide)).trans BitVec.extractLsb'_append_eq_left

/-! ### An Err response -/

/-- An admitted failure takes the request away and raises CIPHER_FAULT with the cipher's code (R51, R243). -/
theorem cipherStep_err {s : State} {req : CipherRequest} (hp : s.pending = some req) (hf : s.cipherFaults = true)
    (c : Byte) : cipherStep (.err c) s = .next (raise (.cipherFault c) { s with pending := none }) := by
  simp only [cipherStep, hp, hf, if_true, respondErr]

/-! ### The statements -/

/-- Settles O20: `raise` is the zeroized state with the eight fields of R246 written over it. -/
theorem raiseEntersErrorPhase : Obligations.RaiseEntersErrorPhase := fun _ _ => rfl

/-- Settles O18: the failure is raised whatever the sequencer waits for, and O20 says what that leaves. -/
theorem cipherFailureEntersError : Obligations.CipherFailureEntersError := by
  intro s req c hp hf
  rw [cipherStep_err hp hf, raiseEntersErrorPhase]
  rfl

/-- Settles O21: code 0 is NONE, which the invariant ties to ERR_INFO 0, and each other code has its own layout. -/
theorem errorInfoLayout : Obligations.ErrorInfoLayout := by
  refine ⟨fun s hinv hcode => hinv.noErrorInfo ((errCodeBits_eq_zero_iff _).1 hcode),
    fun kl => ⟨rfl, errorInfo_invalidKeyLength_fields kl⟩, fun c => ⟨rfl, ?_⟩, fun w => ⟨rfl, rfl⟩,
    fun op ph => ⟨rfl, errorInfo_sequenceError_fields op ph⟩⟩
  rw [errorInfo_cipherFault]
  exact ⟨BitVec.extractLsb'_append_eq_right, BitVec.extractLsb'_append_eq_left⟩

end Sys2Proof.Machine

/-! PROOFS. Everything one step can do, said once as an inductive relation for a command word and one for a step, and what
no step changes (spec 44_commands.md R190 to R193; 20_memory.md R77, R78). -/

namespace Sys2Proof.Machine

/-! ### What a command word does -/

/-- The state after the word `w` is written to CMD in state `s`: one constructor for each way acceptance can end
(R190), with what led to it. -/
inductive WordEffect (w : Word) (s : State) : State → Prop
  | nop (hw : w = encode .nop) : WordEffect w s s
  | dropped (h : s.seq ≠ .waitNone ∨ s.phase = .error ∧ w ≠ encode .clear) : WordEffect w s (drop s)
  | raised (e : CoreError) (hb : s.seq = .waitNone) (he : s.phase ≠ .error) : WordEffect w s (raise e s)
  | keyRefused (hw : w = encode .init) (hb : s.seq = .waitNone) (he : s.phase ≠ .error)
      (hk : keyLenLegal s.keyLen = false) :
      WordEffect w s (raise (.invalidKeyLength s.keyLen) (zeroize (clearResults s)))
  | opened (hw : w = encode .init) (hb : s.seq = .waitNone) (he : s.phase ≠ .error)
      (hk : keyLenLegal s.keyLen = true) :
      WordEffect w s (openMessage (keyOperand s) s.msgLen (zeroize (clearResults s)))
  | chained (hw : w = encode .push) (hb : s.seq = .waitNone) (ha : s.phase = .absorb)
      (hmore : s.blkIdx.toNat + 1 < s.nblk.toNat) :
      WordEffect w s (issue s.keyS (s.x ^^^ s.dataB) .waitChain s)
  | finished (hw : w = encode .push) (hb : s.seq = .waitNone) (ha : s.phase = .absorb)
      (hlast : ¬ s.blkIdx.toNat + 1 < s.nblk.toNat) :
      WordEffect w s (issue s.keyS
        (combineInput s.x (lastBlock s.dataB s.lastComplete s.remS) s.lastComplete s.k1 s.k2) .waitTag s)
  | doubled (hw : w = encode .double) (hb : s.seq = .waitNone) (he : s.phase ≠ .error) :
      WordEffect w s (doubleBody s)
  | cleared (hw : w = encode .clear) (hb : s.seq = .waitNone) : WordEffect w s (clearAll s)

/-- Only ABSORB accepts PUSH (R193). -/
theorem legalIn_push_iff (p : Phase) : legalIn .push p = true ↔ p = .absorb := by
  cases p <;> decide

/-- The word of a command other than NOP: dropped, run by its execute step, or illegal in the phase. -/
theorem wordEffect_of_accept {i : Instr} {f : State → State} {s : State}
    (hrun : s.seq = .waitNone → (s.phase = .error → i = .clear) → legalIn i s.phase = true →
      WordEffect (encode i) s (f s)) :
    WordEffect (encode i) s (accept i f s) := by
  rcases accept_cases i f s with ⟨heq, hdrop⟩ | ⟨heq, hb, he, hl⟩ | ⟨heq, hb, -, he⟩ <;> rw [heq]
  · refine .dropped (hdrop.imp_right fun ⟨he, hi⟩ => ⟨he, fun hw => hi ?_⟩)
    cases (decode_encode i).symm.trans (hw ▸ decode_encode .clear)
    rfl
  · exact hrun hb he hl
  · exact .raised _ hb he

/-- A command's own word has one of the listed effects. -/
theorem wordEffect_command (i : Instr) (s : State) : WordEffect (encode i) s (commandResult i s) := by
  cases i with
  | nop => exact .nop rfl
  | init =>
    refine wordEffect_of_accept fun hb he _ => ?_
    have he : s.phase ≠ .error := fun h => nomatch he h
    rcases initBody_cases s with ⟨hk, heq⟩ | ⟨hk, heq⟩ <;> rw [heq]
    · exact .opened rfl hb he hk
    · exact .keyRefused rfl hb he hk
  | push =>
    refine wordEffect_of_accept fun hb _ hl => ?_
    have ha : s.phase = .absorb := (legalIn_push_iff _).1 hl
    rcases pushBody_cases s with ⟨hmore, heq⟩ | ⟨hlast, heq⟩ <;> rw [heq]
    · exact .chained rfl hb ha hmore
    · exact .finished rfl hb ha hlast
  | double => exact wordEffect_of_accept fun hb he _ => .doubled rfl hb fun h => nomatch he h
  | clear => exact wordEffect_of_accept fun hb _ _ => .cleared rfl hb

/-- Every word written to CMD answers a next state, by one of the listed effects. -/
theorem acceptWord_effect (w : Word) (s : State) : ∃ t, acceptWord w s = .next t ∧ WordEffect w s t := by
  refine ⟨_, acceptWord_eq w s, ?_⟩
  cases hd : decode w with
  | command i => exact eq_encode_of_decode hd ▸ wordEffect_command i s
  | illegal why =>
    rcases rejectWord_cases w s with ⟨heq, hdrop⟩ | ⟨heq, hb, he⟩ <;> simp only [heq]
    · refine .dropped (hdrop.imp_right fun he => ⟨he, fun hw => ?_⟩)
      cases hd.symm.trans (hw ▸ decode_encode .clear)
    · exact .raised _ hb he

/-! ### What a step does -/

/-- The state after a step from `s`: one constructor for each event and each way the core takes it. -/
inductive StepEffect (s : State) : State → Prop
  | rest (hi : s.inputs = []) : StepEffect s s
  | answered (a : BusAccess) (rest : List Event) (q : BusResponse) (hi : s.inputs = .host a :: rest) :
      StepEffect s { s with inputs := rest, resp := q }
  | written (r : Reg) (v : Word) (rest : List Event) (hr : r ≠ .cmd)
      (hi : s.inputs = .host (.write (s.base + regOffset r) v) :: rest) :
      StepEffect s (registerWritten r v { s with inputs := rest, resp := .writeDone })
  | command (w : Word) (rest : List Event) (t : State)
      (hi : s.inputs = .host (.write (s.base + regOffset .cmd) w) :: rest)
      (hw : WordEffect w { s with inputs := rest, resp := .writeDone } t) : StepEffect s t
  | cipherOk (req : CipherRequest) (rest : List Event) (hi : s.inputs = .cipher .ok :: rest)
      (hp : s.pending = some req) (hb : s.seq ≠ .waitNone) :
      StepEffect s (responseResult (Config.encryptBlock req.key req.block) { s with inputs := rest })
  | cipherErr (req : CipherRequest) (c : Byte) (rest : List Event) (hi : s.inputs = .cipher (.err c) :: rest)
      (hp : s.pending = some req) (hf : s.cipherFaults = true) :
      StepEffect s (raise (.cipherFault c) { s with inputs := rest, pending := none })
  | reset (rest : List Event) (hi : s.inputs = .reset :: rest) :
      StepEffect s (hardwareReset { s with inputs := rest })

/-- A bus access the host makes next has one of the effects listed for it. -/
theorem busStep_effect {s t : State} {a : BusAccess} {rest : List Event} (hi : s.inputs = .host a :: rest)
    (h : busStep a { s with inputs := rest } = .next t) : StepEffect s t := by
  rcases busStep_cases a { s with inputs := rest } with ⟨q, heq⟩ | ⟨r, v, hr, rfl, heq⟩ | ⟨w, rfl, heq⟩
  · cases heq.symm.trans h
    exact .answered a rest q hi
  · cases heq.symm.trans h
    exact .written r v rest hr hi
  · obtain ⟨t', heq', hw⟩ := acceptWord_effect w (respondBus .writeDone { s with inputs := rest })
    cases (heq.trans heq').symm.trans h
    exact .command w rest t hi hw

/-- Every step that answers a next state has one of the listed effects. -/
theorem step_effect {s t : State} (h : step s = .next t) : StepEffect s t := by
  rcases step_cases h with ⟨hi, rfl⟩ | ⟨a, rest, hi, hbus⟩ | ⟨r, rest, hi, hc⟩ | ⟨rest, hi, rfl⟩
  · exact .rest hi
  · exact busStep_effect hi hbus
  · rcases cipherStep_cases hc with ⟨req, hp, rfl, hb, rfl⟩ | ⟨req, c, hp, rfl, hf, rfl⟩
    · exact .cipherOk req rest hi hp hb
    · exact .cipherErr req c rest hi hp hf
  · exact .reset rest hi

/-! ### What commands and responses leave alone -/

/-- `t` agrees with `s` on everything the core itself never writes: the host's registers, the parameters, the schedule
and the host's last response (R78). -/
structure SameOutsideCore (s t : State) : Prop where
  keyLen : t.keyLen = s.keyLen
  ie : t.ie = s.ie
  msgLen : t.msgLen = s.msgLen
  keyB : t.keyB = s.keyB
  dataB : t.dataB = s.dataB
  base : t.base = s.base
  cipherFaults : t.cipherFaults = s.cipherFaults
  inputs : t.inputs = s.inputs
  resp : t.resp = s.resp

/-- A command word changes nothing outside the core. -/
theorem WordEffect.sameOutsideCore {w : Word} {s t : State} (h : WordEffect w s t) : SameOutsideCore s t := by
  cases h with
  | nop | dropped | raised | keyRefused | opened | chained | finished | doubled | cleared =>
    exact ⟨rfl, rfl, rfl, rfl, rfl, rfl, rfl, rfl, rfl⟩

/-- An Ok response changes nothing outside the core (R202). -/
theorem responseResult_sameOutsideCore (c : Block) (s : State) : SameOutsideCore s (responseResult c s) := by
  unfold responseResult
  split
  case h_1 => rw [finishSubkeys_eq]; split <;> exact ⟨rfl, rfl, rfl, rfl, rfl, rfl, rfl, rfl, rfl⟩
  case h_2 | h_3 | h_4 => exact ⟨rfl, rfl, rfl, rfl, rfl, rfl, rfl, rfl, rfl⟩

/-- Settles O48, for each effect of a step. -/
theorem stepKeepsParameters : Obligations.StepKeepsParameters := by
  intro s t h
  cases step_effect h with
  | rest hi => simp [hi]
  | answered _ _ _ hi => simp [hi]
  | written r v rest _ hi => cases r <;> simp [registerWritten, hi]
  | command _ _ _ hi hw => simp [hi, hw.sameOutsideCore.base, hw.sameOutsideCore.cipherFaults, hw.sameOutsideCore.inputs]
  | cipherOk req rest hi =>
    obtain ⟨-, -, -, -, -, hbase, hfaults, hinputs, -⟩ :=
      responseResult_sameOutsideCore (Config.encryptBlock req.key req.block) { s with inputs := rest }
    simp [hi, hbase, hfaults, hinputs]
  | cipherErr _ _ _ hi => simp [hi]
  | reset _ hi => simp [hi, hardwareReset]

end Sys2Proof.Machine

/-! PROOFS. The invariant: it holds after reset and every step keeps it, one lemma for each operation that changes a field
it speaks of (spec 10_state.md R48). -/

namespace Sys2Proof.Machine

/-! ### The operations that close the message -/

/-- TAKING AN ERROR meets the invariant from any state whose base and progress registers do: all else is overwritten
(R246). -/
theorem inv_raise (e : CoreError) {s : State} (hbase : s.base % Config.windowBytes = 0)
    (hle : s.blkIdx.toNat ≤ s.nblk.toNat) (hcount : s.nblk.toNat ≤ 2 ^ 60) : Inv (raise e s) where
  seqPending := iff_of_true rfl rfl
  quietPhases := fun _ => rfl
  absorbIndex := nofun
  doneResult := nofun
  closedSecrets := fun _ => ⟨rfl, rfl, rfl, rfl⟩
  errorCode := iff_of_true rfl (by cases e <;> simp [errorCode])
  absorbKey := nofun
  baseAligned := hbase
  requestKey := nofun
  waitLState := nofun
  waitChainIndex := nofun
  waitTagIndex := nofun
  absorbClass := nofun
  absorbNonempty := nofun
  indexLe := hle
  countLe := hcount
  closedSnapshots := fun _ => ⟨rfl, rfl, rfl⟩
  noErrorInfo := by cases e <;> exact nofun
  noOutput := fun _ => rfl

/-- A core with no request in flight that is cleared meets the invariant (R214). -/
theorem inv_clearAll {s : State} (hbase : s.base % Config.windowBytes = 0) (hb : s.seq = .waitNone)
    (hp : s.pending = none) : Inv (clearAll s) where
  seqPending := iff_of_true hb hp
  quietPhases := fun _ => hb
  absorbIndex := nofun
  doneResult := nofun
  closedSecrets := fun _ => ⟨rfl, rfl, rfl, rfl⟩
  errorCode := iff_of_false nofun (· rfl)
  absorbKey := nofun
  baseAligned := hbase
  requestKey := by simp [hp]
  waitLState := by simp [hb]
  waitChainIndex := by simp [hb]
  waitTagIndex := by simp [hb]
  absorbClass := nofun
  absorbNonempty := nofun
  indexLe := Nat.le_refl 0
  countLe := Nat.zero_le _
  closedSnapshots := fun _ => ⟨rfl, rfl, rfl⟩
  noErrorInfo := fun _ => rfl
  noOutput := fun _ => rfl

/-- A reset core is a cleared one with its host registers at 0 (R55, R280), so it meets the invariant. -/
theorem inv_reset_with (base : Nat) (cf : Bool) (inputs : List Event) (resp : BusResponse)
    (hbase : base % Config.windowBytes = 0) :
    Inv { State.reset with base := base, cipherFaults := cf, inputs := inputs, resp := resp } :=
  inv_clearAll (s := { State.reset with base := base, cipherFaults := cf, inputs := inputs, resp := resp }) hbase rfl rfl

/-! ### The commands that keep a message open or open one -/

/-- INIT's key operand has the length that KEYLEN says (R44). -/
theorem keyOperand_length (s : State) (h : s.keyLen.toNat ≤ 32) : (keyOperand s).length = s.keyLen.toNat := by
  simp [keyOperand, bytesOf_length, h]

/-- A legal KEYLEN makes a key operand of a legal length (R8). -/
theorem keyOperand_length_legal {s : State} (hk : keyLenLegal s.keyLen = true) :
    (keyOperand s).length = 16 ∨ (keyOperand s).length = 24 ∨ (keyOperand s).length = 32 := by
  rcases (keyLenLegal_iff _).1 hk with h | h | h <;> simp [keyOperand_length, h]

/-- The block count is between 1 and 2^60 (R130, R131). -/
theorem classify_count_bounds (n : BitVec 64) :
    1 ≤ (classify n).blockCount.toNat ∧ (classify n).blockCount.toNat ≤ 2 ^ 60 := by
  obtain ⟨-, hclass⟩ := classifyCountsBlocks
  obtain ⟨-, -, -, hone, hmax, -⟩ := hclass n
  exact ⟨hone, hmax⟩

/-- INIT that opens a message keeps the invariant: its request is for the zero block, and the segmenter's outputs are
those of the length it snapshots (R197). -/
theorem Inv.openMessage {s : State} (h : Inv s) (he : s.phase ≠ .error) (hk : keyLenLegal s.keyLen = true) :
    Inv (openMessage (keyOperand s) s.msgLen (zeroize (clearResults s))) where
  seqPending := iff_of_false nofun nofun
  quietPhases := by rintro (h | h | h) <;> cases h
  absorbIndex := fun _ => by rintro (h | h | h) <;> cases h
  doneResult := nofun
  closedSecrets := by rintro (h | h) <;> cases h
  errorCode := iff_of_false nofun fun hc => he (h.errorCode.2 hc)
  absorbKey := fun _ => keyOperand_length_legal hk
  baseAligned := h.baseAligned
  requestKey := by rintro r ⟨⟩; rfl
  waitLState := fun _ => ⟨rfl, rfl, rfl, rfl, rfl⟩
  waitChainIndex := nofun
  waitTagIndex := nofun
  absorbClass := fun _ => ⟨rfl, rfl, rfl⟩
  absorbNonempty := fun _ => by rintro (h | h) <;> cases h
  indexLe := Nat.zero_le _
  countLe := (classify_count_bounds s.msgLen).2
  closedSnapshots := fun ha => absurd rfl ha
  noErrorInfo := h.noErrorInfo
  noOutput := fun _ => rfl

/-- PUSH keeps the invariant: the request carries the message's key, and the wait it starts fits the block's place
(R200). -/
theorem Inv.issue_push {s : State} (h : Inv s) (ha : s.phase = .absorb) (hb : s.seq = .waitNone) (b : Block) {q : Seq}
    (hq : (q = .waitChain ∧ s.blkIdx.toNat + 1 < s.nblk.toNat) ∨
      (q = .waitTag ∧ ¬ s.blkIdx.toNat + 1 < s.nblk.toNat)) :
    Inv (issue s.keyS b q s) :=
  have hidx : s.blkIdx.toNat < s.nblk.toNat := h.absorbIndex ha (.inl hb)
  { h with
    seqPending := iff_of_false (by rcases hq with ⟨rfl, -⟩ | ⟨rfl, -⟩ <;> exact nofun) nofun
    quietPhases := by simp [ha]
    absorbIndex := fun _ _ => hidx
    requestKey := by rintro r ⟨⟩; rfl
    waitLState := by rcases hq with ⟨rfl, -⟩ | ⟨rfl, -⟩ <;> exact nofun
    waitChainIndex := by
      rcases hq with ⟨rfl, hmore⟩ | ⟨rfl, -⟩
      · exact fun _ => hmore
      · exact nofun
    waitTagIndex := by
      rcases hq with ⟨rfl, -⟩ | ⟨rfl, hlast⟩
      · exact nofun
      · intro _
        simp only [issue_blkIdx, issue_nblk]
        omega
    absorbNonempty := fun _ _ => h.absorbNonempty ha (.inl hb) }

/-- DOUBLE writes OUTB and raises OUT_VALID with it, which the invariant allows in every phase (R210). -/
theorem Inv.doubleBody {s : State} (h : Inv s) : Inv (doubleBody s) :=
  { h with
    doneResult := fun hd => by
      obtain ⟨hidx, hone, -, hsecrets⟩ := h.doneResult hd
      exact ⟨hidx, hone, rfl, hsecrets⟩
    noOutput := nofun }

/-- Every command word keeps the invariant. -/
theorem Inv.word {w : Word} {s t : State} (h : Inv s) (hw : WordEffect w s t) : Inv t := by
  cases hw with
  | nop => exact h
  | dropped => exact { h with }
  | raised e => exact inv_raise e h.baseAligned h.indexLe h.countLe
  | keyRefused => exact inv_raise _ h.baseAligned (Nat.le_refl 0) (Nat.zero_le _)
  | opened _ _ he hk => exact h.openMessage he hk
  | chained _ hb ha hmore => exact h.issue_push ha hb _ (.inl ⟨rfl, hmore⟩)
  | finished _ hb ha hlast => exact h.issue_push ha hb _ (.inr ⟨rfl, hlast⟩)
  | doubled => exact h.doubleBody
  | cleared _ hb => exact inv_clearAll h.baseAligned hb (h.seqPending.1 hb)

/-- A write to a register other than CMD keeps the invariant, which speaks of no register the host writes. -/
theorem Inv.registerWritten {s : State} (h : Inv s) (r : Reg) (v : Word) : Inv (registerWritten r v s) := by
  cases r with
  | ctrl | status | msgLenLo | msgLenHi | key | data => exact { h with }
  | cmd | id | errInfo | nblkLo | nblkHi | blkIdxLo | blkIdxHi | out => exact h

/-! ### The awaited responses -/

/-- A block index below another 64-bit value does not wrap when it advances (R204, R205). -/
theorem toNat_add_one {i n : BitVec 64} (h : i.toNat + 1 ≤ n.toNat) : (i + 1).toNat = i.toNat + 1 :=
  BitVec.toNat_add_of_lt (h.trans_lt n.isLt)

/-- The WAIT_L response of an empty message waits for the tag of its one block (R203). -/
theorem Inv.tagOfEmpty {s : State} (h : Inv s) (hq : s.seq = .waitL) (hlen : s.lenS = 0) (k1 k2 b : Block) :
    Inv (issue s.keyS b .waitTag { s with k1 := k1, k2 := k2, pending := none }) :=
  have ha : s.phase = .absorb := h.absorb_of_busy (by simp [hq])
  have hidx : s.blkIdx.toNat + 1 = s.nblk.toNat := by
    obtain ⟨-, hzero, -⟩ := h.waitLState hq
    obtain ⟨hcount, -⟩ := h.absorbClass ha
    rw [hcount, hlen, hzero]
    rfl
  { h with
    seqPending := iff_of_false nofun nofun
    quietPhases := by simp [ha]
    absorbIndex := fun _ _ => hidx ▸ Nat.lt_succ_self _
    doneResult := by simp [ha]
    closedSecrets := by simp [ha]
    requestKey := by rintro r ⟨⟩; rfl
    waitLState := nofun
    waitChainIndex := nofun
    waitTagIndex := fun _ => hidx
    absorbNonempty := fun _ => by rintro (h | h) <;> cases h }

/-- A response that ends BUSY with the message still open keeps the invariant when a block of it is still to come: of
a nonempty message after WAIT_L, of any after WAIT_CHAIN (R203, R204). -/
theorem Inv.complete_open {s : State} (h : Inv s) (ha : s.phase = .absorb) (hlen : s.lenS ≠ 0) (k1 k2 x : Block)
    (i : BitVec 64) (hidx : i.toNat < s.nblk.toNat) :
    Inv (complete { s with k1 := k1, k2 := k2, x := x, blkIdx := i, pending := none }) :=
  { h with
    seqPending := iff_of_true rfl rfl
    quietPhases := fun _ => rfl
    absorbIndex := fun _ _ => hidx
    doneResult := by simp [ha]
    closedSecrets := by simp [ha]
    requestKey := nofun
    waitLState := nofun
    waitChainIndex := nofun
    waitTagIndex := nofun
    absorbNonempty := fun _ _ => hlen
    indexLe := hidx.le }

/-- The WAIT_TAG response closes the message with BLKIDX at NBLK (R205). -/
theorem Inv.finishTag {s : State} (h : Inv s) (hq : s.seq = .waitTag) (c : Block) :
    Inv (finishTag c { s with pending := none }) :=
  have ha : s.phase = .absorb := h.absorb_of_busy (by simp [hq])
  have hidx : s.blkIdx + 1 = s.nblk :=
    have hlast := h.waitTagIndex hq
    BitVec.eq_of_toNat_eq ((toNat_add_one hlast.le).trans hlast)
  { h with
    seqPending := iff_of_true rfl rfl
    quietPhases := fun _ => rfl
    absorbIndex := nofun
    doneResult := fun _ => ⟨hidx, h.waitTagIndex hq ▸ Nat.le_add_left 1 _, rfl, rfl, rfl, rfl⟩
    closedSecrets := by rintro (h | h) <;> cases h
    errorCode := iff_of_false nofun fun hc => by simpa [ha] using h.errorCode.2 hc
    absorbKey := nofun
    requestKey := nofun
    waitLState := nofun
    waitChainIndex := nofun
    waitTagIndex := nofun
    absorbClass := nofun
    absorbNonempty := nofun
    indexLe := (congrArg BitVec.toNat hidx).le
    closedSnapshots := fun _ => ⟨rfl, rfl, rfl⟩
    noOutput := nofun }

/-- Every awaited response keeps the invariant. -/
theorem Inv.responseResult {s : State} (h : Inv s) (c : Block) : Inv (responseResult c s) := by
  unfold Machine.responseResult
  split
  case h_1 hq =>
    have ha : s.phase = .absorb := h.absorb_of_busy (by simp [hq])
    rw [finishSubkeys_eq]
    split
    case isTrue hlen => exact h.tagOfEmpty hq hlen _ _ _
    case isFalse hlen =>
      refine h.complete_open ha hlen _ _ _ _ ?_
      obtain ⟨-, hzero, -⟩ := h.waitLState hq
      obtain ⟨hcount, -⟩ := h.absorbClass ha
      rw [hcount, hzero]
      exact (classify_count_bounds s.lenS).1
  case h_2 hq =>
    have ha : s.phase = .absorb := h.absorb_of_busy (by simp [hq])
    have hmore := h.waitChainIndex hq
    refine h.complete_open ha (h.absorbNonempty ha (.inr hq)) _ _ _ _ ?_
    rw [toNat_add_one hmore.le]
    exact hmore
  case h_3 hq => exact h.finishTag hq c
  case h_4 => exact h

/-! ### The statements -/

/-- Settles O46, for each effect of a step. -/
theorem stepKeepsInvariant : Obligations.StepKeepsInvariant := by
  intro s t h hstep
  cases step_effect hstep with
  | rest => exact h
  | answered a rest q => exact h.with_env rest q
  | written r v rest => exact (h.with_env rest .writeDone).registerWritten r v
  | command w rest t _ hw => exact (h.with_env rest .writeDone).word hw
  | cipherOk req rest => exact (h.with_env rest s.resp).responseResult _
  | cipherErr req c rest => exact inv_raise _ h.baseAligned h.indexLe h.countLe
  | reset rest => exact inv_reset_with _ _ _ _ h.baseAligned

/-- Settles O45: the boot state is a reset state. -/
theorem bootStateMeetsInvariant : Obligations.BootStateMeetsInvariant :=
  fun base cf inputs => inv_reset_with base cf inputs .noAccess

/-- Settles O47: the invariant holds at boot and along every run, and contains the seven of R48. -/
theorem reachableMeetsSpecInvariants : Obligations.ReachableMeetsSpecInvariants := by
  rintro s ⟨base, cf, inputs, n, hbase, hrun⟩
  exact (run_keeps stepKeepsInvariant (bootStateMeetsInvariant base cf inputs hbase) hrun).toSpecInvariants

end Sys2Proof.Machine

/-! PROOFS. The hardware's segmentation against the document's, and a message as the bytes of its blocks
(spec 41_segmenter.md R135, R136; 43_tag_combiner.md R174). -/

namespace Sys2Proof.Machine

/-! ### The document's segments -/

/-- The document's segments of a nonempty message, by its remainder (R130, R134). -/
theorem segmentMessage_of_ne_nil {m : List Byte} (hm : m ≠ []) :
    segmentMessage m =
      if m.length % 16 = 0 then ⟨m.length / 16, true, blockOfBytes (m.drop (m.length - 16))⟩
      else ⟨m.length / 16 + 1, false, blockOfBytes (m.drop (16 * (m.length / 16)) ++ [0x80])⟩ := by
  simp only [segmentMessage, List.length_eq_zero_iff, hm, if_false]

/-- A block whose bytes are the list's, in order, with 0 past its end is the block of that list. -/
theorem eq_blockOfBytes {d : Block} {bs : List Byte} (h : ∀ j, j < 16 → byteAt d j = bs[j]?.getD 0) :
    d = blockOfBytes bs :=
  eq_of_byteAt rfl _ _ fun j hj => (h j hj).trans (byteAt_blockOfBytes bs j hj).symm

/-- A length below 2^64 is its 64-bit value. -/
theorem toNat_ofNat_length {m : List Byte} (hlen : m.length < 2 ^ 64) : (BitVec.ofNat 64 m.length).toNat = m.length :=
  (BitVec.toNat_ofNat _ _).trans (Nat.mod_eq_of_lt hlen)

/-- A 64-bit length is 0 exactly for the empty message. -/
theorem ofNat_length_eq_zero_iff {m : List Byte} (hlen : m.length < 2 ^ 64) : BitVec.ofNat 64 m.length = 0 ↔ m = [] := by
  rw [← BitVec.toNat_inj, toNat_ofNat_length hlen]
  exact List.length_eq_zero_iff

/-- The last block, whole or padded, is the document's, for a DATAB that holds the message's last bytes. -/
theorem lastBlock_eq_segment {m : List Byte} (hm : m ≠ []) {d : Block} {complete : Bool} {r : BitVec 4}
    (hc : complete = true ↔ m.length % 16 = 0) (hr : r.toNat = m.length % 16)
    (hd : ∀ j, j < 16 → 16 * ((m.length + 15) / 16 - 1) + j < m.length →
      some (byteAt d j) = m[16 * ((m.length + 15) / 16 - 1) + j]?) :
    lastBlock d complete r = (segmentMessage m).lastBlock := by
  have hpos : 0 < m.length := List.length_pos_iff.2 hm
  rw [segmentMessage_of_ne_nil hm, lastBlock]
  by_cases hrem : m.length % 16 = 0
  · rw [if_pos (hc.2 hrem), if_pos hrem]
    refine eq_blockOfBytes fun j hj => ?_
    have hstart : 16 * ((m.length + 15) / 16 - 1) = m.length - 16 := by omega
    rw [List.getElem?_drop, ← hstart, ← hd j hj (by omega), Option.getD_some]
  · rw [if_neg (mt hc.1 hrem), if_neg hrem]
    refine eq_blockOfBytes fun j hj => ?_
    have hstart : 16 * ((m.length + 15) / 16 - 1) = 16 * (m.length / 16) := by omega
    have hdrop : (m.drop (16 * (m.length / 16))).length = r.toNat := by rw [List.length_drop, hr]; omega
    rw [byteAt_pad d r hj]
    by_cases hbelow : j < r.toNat
    · rw [if_pos hbelow, List.getElem?_append_left (by omega), List.getElem?_drop, ← hstart, ← hd j hj (by omega),
        Option.getD_some]
    · rw [if_neg hbelow, List.getElem?_append_right (by omega), hdrop]
      by_cases hat : j = r.toNat
      · simp [hat]
      · simp [hat, show j - r.toNat ≠ 0 by omega]

/-- Settles O42: counts and classes by R130's arithmetic, the last block byte by byte. -/
theorem segmenterMatchesDocument : Obligations.SegmenterMatchesDocument := by
  intro m hlen
  by_cases hm : m = []
  · subst hm
    exact ⟨rfl, rfl, fun _ => (by decide), fun h => absurd rfl h⟩
  · have hpos : 0 < m.length := List.length_pos_iff.2 hm
    have hn : BitVec.ofNat 64 m.length ≠ 0 := mt (ofNat_length_eq_zero_iff hlen).1 hm
    have htoNat : (BitVec.ofNat 64 m.length).toNat = m.length := toNat_ofNat_length hlen
    have hcount := toNat_blockCount_classify hn
    have hcomplete := lastComplete_classify_iff (BitVec.ofNat 64 m.length)
    have hrem := toNat_rem_classify (BitVec.ofNat 64 m.length)
    rw [htoNat] at hcount hcomplete hrem
    rw [and_iff_right hn] at hcomplete
    refine ⟨?_, ?_, fun h => absurd h hm, fun _ d hd => ?_⟩
    · rw [hcount, segmentMessage_of_ne_nil hm]
      split <;> simp only <;> omega
    · rw [Bool.eq_iff_iff, hcomplete, segmentMessage_of_ne_nil hm]
      split <;> simp [*]
    · rw [hcount] at hd
      exact lastBlock_eq_segment hm hcomplete hrem hd

/-! ### Messages as the bytes of blocks -/

/-- Byte `16 i + j` of the bytes of a list of blocks is byte `j` of block `i`. -/
theorem getElem?_flatMap_bytesOf (bs : List Block) (i : Nat) {j : Nat} (hj : j < 16) :
    (bs.flatMap bytesOf)[16 * i + j]? = bs[i]?.map (byteAt · j) := by
  induction bs generalizing i with
  | nil => simp
  | cons b bs ih =>
    rw [List.flatMap_cons]
    cases i with
    | zero =>
      have hin : 16 * 0 + j < (bytesOf b).length := by rw [bytesOf_length]; omega
      rw [List.getElem?_append_left hin, List.getElem?_eq_getElem hin, bytesOf_getElem]
      simp
    | succ i =>
      rw [List.getElem?_append_right (by rw [bytesOf_length]; omega), bytesOf_length,
        show 16 * (i + 1) + j - 128 / 8 = 16 * i + j by omega, ih]
      simp

/-- A list of blocks has 16 bytes a block. -/
theorem length_flatMap_bytesOf (bs : List Block) : (bs.flatMap bytesOf).length = 16 * bs.length := by
  simp [List.length_flatMap, bytesOf_length, Nat.mul_comm]

/-- The message's block `i` is the block that holds its bytes (R135). -/
theorem messageBlock_eq {m : List Byte} {i : Nat} {d : Block}
    (h : ∀ j, j < 16 → m[16 * i + j]? = some (byteAt d j)) : messageBlock m i = d := by
  refine (eq_blockOfBytes fun j hj => ?_).symm
  rw [List.getElem?_take_of_lt hj, List.getElem?_drop, h j hj, Option.getD_some]

/-- A nonempty message of `n` bytes needs `n` at most 16 bytes a block and more than that of all blocks but the last. -/
theorem length_bounds_of_count {n : BitVec 64} (hn : n ≠ 0) {c : Nat} (hc : c + 1 = (classify n).blockCount.toNat) :
    16 * c < n.toNat ∧ n.toNat ≤ 16 * (c + 1) := by
  have hpos : n.toNat ≠ 0 := fun h => hn (BitVec.eq_of_toNat_eq h)
  rw [toNat_blockCount_classify hn] at hc
  omega

/-- The document's CMAC of the first `n` bytes of as many blocks as R130 counts: the blocks but the last are chained, and
the last goes through the hardware's `lastBlock` and the combiner (R174). -/
theorem computeCmac_of_blocks (cipher : Key → Block → Block) (k : Key) {n : BitVec 64} (hn : n ≠ 0) (bs : List Block)
    (d : Block) (hcount : bs.length + 1 = (classify n).blockCount.toNat) :
    computeCmac cipher k (((bs ++ [d]).flatMap bytesOf).take n.toNat) =
      cipher k (combineInput (chain cipher k bs) (lastBlock d (classify n).lastComplete (classify n).rem)
        (classify n).lastComplete (subkeys (cipher k 0)).1 (subkeys (cipher k 0)).2) := by
  obtain ⟨hmore, hfit⟩ := length_bounds_of_count hn hcount
  generalize hm : ((bs ++ [d]).flatMap bytesOf).take n.toNat = m
  have hlen : m.length = n.toNat := by
    rw [← hm, List.length_take, length_flatMap_bytesOf, List.length_append, List.length_singleton]
    omega
  have hbyte : ∀ i j, j < 16 → 16 * i + j < n.toNat → m[16 * i + j]? = (bs ++ [d])[i]?.map (byteAt · j) := by
    intro i j hj hin
    rw [← hm, List.getElem?_take_of_lt hin, getElem?_flatMap_bytesOf _ _ hj]
  have hseg := segmenterMatchesDocument m (hlen ▸ n.isLt)
  rw [hlen, BitVec.ofNat_toNat, BitVec.setWidth_eq] at hseg
  obtain ⟨hblocks, hcomplete, -, hlast⟩ := hseg
  have hlast := hlast (fun h => by simp [h] at hlen; omega) d fun j hj hin => by
    rw [← hcount, Nat.add_sub_cancel] at hin ⊢
    simp [hbyte bs.length j hj (by omega)]
  have hchain : (List.range ((segmentMessage m).blockCount - 1)).map (messageBlock m) = bs := by
    rw [← hblocks, ← hcount, Nat.add_sub_cancel]
    refine List.ext_getElem (by simp) fun i _ hi => ?_
    rw [List.getElem_map, List.getElem_range]
    refine messageBlock_eq fun j hj => ?_
    simp [hbyte i j hj (by omega), List.getElem?_append_left hi, List.getElem?_eq_getElem hi]
  simp only [computeCmac, hchain, ← hlast, ← hcomplete]

/-- The document's CMAC of the empty message (R203). -/
theorem computeCmac_nil (cipher : Key → Block → Block) (k : Key) :
    computeCmac cipher k [] = cipher k (combineInput 0 (pad 0 0) false (subkeys (cipher k 0)).1
      (subkeys (cipher k 0)).2) := by
  have hpad : blockOfBytes [0x80] = pad 0 0 := by decide
  rw [← hpad]
  rfl

/-- The blocks of a message, cut to its length, are the message. -/
theorem take_flatMap_messageBlock (m : List Byte) :
    (((List.range ((m.length + 15) / 16)).map (messageBlock m)).flatMap bytesOf).take m.length = m := by
  refine List.ext_getElem? fun q => ?_
  by_cases hq : q < m.length
  · have hj : q % 16 < 16 := Nat.mod_lt _ (by decide)
    have hsplit : 16 * (q / 16) + q % 16 = q := Nat.div_add_mod q 16
    have hblock : byteAt (messageBlock m (q / 16)) (q % 16) = m[q] := by
      rw [messageBlock, byteAt_blockOfBytes _ _ hj, List.getElem?_take_of_lt hj, List.getElem?_drop, hsplit]
      simp [hq]
    rw [List.getElem?_take_of_lt hq, ← hsplit, getElem?_flatMap_bytesOf _ _ hj, hsplit]
    simp [show q / 16 < (m.length + 15) / 16 by omega, hblock, hq]
  · rw [List.getElem?_eq_none (by rw [List.length_take]; omega), List.getElem?_eq_none (by omega)]

end Sys2Proof.Machine

/-! PROOFS. The run of one message: INIT, one PUSH for each block, each awaited, ends with the document's CMAC in OUTB
(spec 44_commands.md R218). The message is followed through two predicates, one for each boundary between commands. -/

namespace Sys2Proof.Machine

/-! ### Runs of schedules -/

/-- A run changes neither the base nor the events that come after those it takes (R71). -/
theorem run_environment {n : Nat} {s t : State} (h : core.run n s = .next t) :
    t.base = s.base ∧ t.inputs = s.inputs.drop n := by
  induction n generalizing s with
  | zero =>
    cases h
    exact ⟨rfl, rfl⟩
  | succ n ih =>
    obtain ⟨u, hstep, hrun⟩ := run_succ_inv h
    obtain ⟨hbase, -, hinputs⟩ := stepKeepsParameters s u hstep
    obtain ⟨hbase', hinputs'⟩ := ih hrun
    exact ⟨hbase'.trans hbase, by rw [hinputs', hinputs, ← List.drop_one, List.drop_drop, Nat.add_comm 1 n]⟩

/-- After a run of the events `es`, the base is as before and what followed `es` is left. -/
theorem run_schedule {es rest : List Event} {s t : State} (hi : s.inputs = es ++ rest)
    (h : core.run es.length s = .next t) : t.base = s.base ∧ t.inputs = rest := by
  obtain ⟨hbase, hinputs⟩ := run_environment h
  exact ⟨hbase, by rw [hinputs, hi, List.drop_left]⟩

/-- The runs of two schedules, one after the other. -/
theorem run_append {es fs : List Event} {s t u : State} (hes : core.run es.length s = .next t)
    (hfs : core.run fs.length t = .next u) : core.run (es ++ fs).length s = .next u := by
  rw [List.length_append, run_add _ _ hes, hfs]

/-- `s` with another schedule and another last response of the host, which no command and no answer reads. -/
def withEnv (es : List Event) (q : BusResponse) (s : State) : State := { s with inputs := es, resp := q }

/-- Acceptance does not read the schedule if the execute step does not. -/
theorem accept_withEnv {i : Instr} {f : State → State} {s : State} {es : List Event} {q : BusResponse}
    (hf : f (withEnv es q s) = withEnv es q (f s)) :
    accept i f (withEnv es q s) = withEnv es q (accept i f s) := by
  unfold accept
  rw [apply_ite (withEnv es q), apply_ite (withEnv es q), apply_ite (withEnv es q), ← hf]
  rfl

/-- A command reads neither the schedule nor the host's last response. -/
theorem commandResult_withEnv (i : Instr) (es : List Event) (q : BusResponse) (s : State) :
    commandResult i (withEnv es q s) = withEnv es q (commandResult i s) := by
  cases i with
  | nop => rfl
  | init => exact accept_withEnv (by unfold initBody; rw [apply_ite (withEnv es q)]; rfl)
  | push => exact accept_withEnv (by unfold pushBody; rw [apply_ite (withEnv es q)]; rfl)
  | double | clear => exact accept_withEnv rfl

/-- An Ok response reads neither the schedule nor the host's last response. -/
theorem responseResult_withEnv (c : Block) (es : List Event) (q : BusResponse) (s : State) :
    responseResult c (withEnv es q s) = withEnv es q (responseResult c s) := by
  have hseq : (withEnv es q s).seq = s.seq := rfl
  unfold responseResult
  rw [hseq]
  cases s.seq with
  | waitL =>
    simp only [finishSubkeys_eq]
    rw [apply_ite (withEnv es q)]
    rfl
  | waitChain | waitTag | waitNone => rfl

/-- A WAIT in which the pending request is answered Ok leaves what that response makes of the state. -/
theorem run_awaitAnswer_response {s : State} {req : CipherRequest} {base before after : Nat} {rest : List Event}
    (hp : s.pending = some req) (hb : s.seq ≠ .waitNone) (hbase : s.base = base)
    (hi : s.inputs = awaitAnswer base before after ++ rest) :
    ∃ q, core.run (awaitAnswer base before after).length s =
      .next (withEnv rest q (responseResult (Config.encryptBlock req.key req.block) s)) := by
  subst hbase
  have hlen : (awaitAnswer s.base before after).length = before + 1 + after := by
    simp [awaitAnswer, asmWait]
    omega
  obtain ⟨q, q', h⟩ := run_awaitAnswer hp hi (f := responseResult) (fun c i q => respondOk_eq c hb)
    fun c t => ⟨(responseResult_sameOutsideCore c t).inputs, (responseResult_sameOutsideCore c t).base⟩
  refine ⟨q', hlen ▸ h.trans ?_⟩
  change Host.Outcome.next (withEnv rest q' (responseResult _ (withEnv _ q s))) = _
  rw [responseResult_withEnv]
  rfl

/-- A command that leaves a request pending, and its WAIT with one Ok answer. -/
theorem run_command_awaited {s : State} {i : Instr} {req : CipherRequest} {before after : Nat} {rest : List Event}
    (hp : (commandResult i s).pending = some req) (hb : (commandResult i s).seq ≠ .waitNone)
    (hi : s.inputs = asmCmd s.base i :: awaitAnswer s.base before after ++ rest) :
    ∃ q, core.run (asmCmd s.base i :: awaitAnswer s.base before after).length s =
      .next (withEnv rest q (responseResult (Config.encryptBlock req.key req.block) (commandResult i s))) := by
  have hstep := step_asmCmd hi
  change step s = .next (commandResult i (withEnv _ _ s)) at hstep
  rw [commandResult_withEnv] at hstep
  have hbase : (commandResult i s).base = s.base := (wordEffect_command i s).sameOutsideCore.base
  obtain ⟨q, hrun⟩ := run_awaitAnswer_response
    (s := withEnv (awaitAnswer s.base before after ++ rest) .writeDone (commandResult i s)) hp hb hbase rfl
  rw [List.length_cons, run_succ _ hstep]
  refine ⟨q, hrun.trans ?_⟩
  rw [responseResult_withEnv]
  rfl

/-! ### The boundaries between commands -/

/-- The subkeys of a key (R113). -/
def keySubkeys (k : Key) : Block × Block := subkeys (Config.encryptBlock k 0)

/-- The message that INIT opened in `s₀` waits in `s` for its block `i`, with the blocks before it chained into `x`. -/
structure MessageOpen (s₀ : State) (i : Nat) (x : Block) (s : State) : Prop where
  phase : s.phase = .absorb
  idle : s.seq = .waitNone
  keyS : s.keyS = keyOperand s₀
  nblk : s.nblk = (classify s₀.msgLen).blockCount
  lastComplete : s.lastComplete = (classify s₀.msgLen).lastComplete
  remS : s.remS = (classify s₀.msgLen).rem
  blkIdx : s.blkIdx.toNat = i
  x : s.x = x
  k1 : s.k1 = (keySubkeys (keyOperand s₀)).1
  k2 : s.k2 = (keySubkeys (keyOperand s₀)).2
  base : s.base = s₀.base
  cmdDrop : s.cmdDrop = s₀.cmdDrop

/-- The message that INIT opened in `s₀` is closed in `s`, with its tag in OUTB (R205). -/
structure MessageTagged (s₀ : State) (tag : Block) (s : State) : Prop where
  phase : s.phase = .done
  idle : s.seq = .waitNone
  outValid : s.outValid = true
  outB : s.outB = tag
  cmdDrop : s.cmdDrop = s₀.cmdDrop

/-- The cipher input of the tag of the message that INIT opened in `s₀`, whose last DATA block is `d` and whose blocks
before it are chained into `x` (R170, R200). -/
def tagInput (s₀ : State) (x d : Block) : Block :=
  let c := classify s₀.msgLen
  combineInput x (lastBlock d c.lastComplete c.rem) c.lastComplete (keySubkeys (keyOperand s₀)).1
    (keySubkeys (keyOperand s₀)).2

/-! ### INIT -/

/-- INIT with a legal key length opens the message (R197). -/
theorem commandResult_init {s : State} (hb : s.seq = .waitNone) (he : s.phase ≠ .error)
    (hk : keyLenLegal s.keyLen = true) :
    commandResult .init s = openMessage (keyOperand s) s.msgLen (zeroize (clearResults s)) := by
  refine (accept_of_ne_error (by decide) hb he).trans ?_
  simp only [initBody, hk, if_true]

/-- INIT and its WAIT: the request for `L` is answered (R203). -/
theorem run_init {s : State} {before between : Nat} {rest : List Event} (hb : s.seq = .waitNone)
    (he : s.phase ≠ .error) (hk : keyLenLegal s.keyLen = true)
    (hi : s.inputs = asmCmd s.base .init :: awaitAnswer s.base before between ++ rest) :
    ∃ q, core.run (asmCmd s.base .init :: awaitAnswer s.base before between).length s =
      .next (withEnv rest q (finishSubkeys (Config.encryptBlock (keyOperand s) 0)
        { openMessage (keyOperand s) s.msgLen (zeroize (clearResults s)) with pending := none })) := by
  have hcmd := commandResult_init hb he hk
  obtain ⟨q, hrun⟩ := run_command_awaited (req := ⟨keyOperand s, 0⟩) (by rw [hcmd]; rfl) (by rw [hcmd]; exact nofun) hi
  rw [hcmd] at hrun
  exact ⟨q, hrun⟩

/-- A nonempty message completes INIT with its subkeys derived (R203). -/
theorem finishSubkeys_nonempty (l : Block) {s : State} (h : s.lenS ≠ 0) :
    finishSubkeys l s = complete { s with k1 := (subkeys l).1, k2 := (subkeys l).2 } := if_neg h

/-- An empty message issues its tag request at once (R203). -/
theorem finishSubkeys_empty (l : Block) {s : State} (h : s.lenS = 0) :
    finishSubkeys l s = issue s.keyS (combineInput s.x (pad 0 0) false (subkeys l).1 (subkeys l).2) .waitTag
      { s with k1 := (subkeys l).1, k2 := (subkeys l).2 } := if_pos h

/-- INIT and its WAIT open a nonempty message at its block 0, with nothing chained yet. -/
theorem run_init_open {s : State} {before between : Nat} {rest : List Event} (hb : s.seq = .waitNone)
    (he : s.phase ≠ .error) (hk : keyLenLegal s.keyLen = true) (hlen : s.msgLen ≠ 0)
    (hi : s.inputs = asmCmd s.base .init :: awaitAnswer s.base before between ++ rest) :
    ∃ t, core.run (asmCmd s.base .init :: awaitAnswer s.base before between).length s = .next t ∧
      MessageOpen s 0 0 t := by
  obtain ⟨q, hrun⟩ := run_init hb he hk hi
  rw [finishSubkeys_nonempty _ (by exact hlen)] at hrun
  exact ⟨_, hrun, rfl, rfl, rfl, rfl, rfl, rfl, rfl, rfl, rfl, rfl, rfl, rfl⟩

/-- The response awaited in WAIT_TAG finishes the tag. -/
theorem responseResult_waitTag (c : Block) {s : State} (hq : s.seq = .waitTag) :
    responseResult c s = finishTag c { s with pending := none } := by
  simp only [responseResult, hq]

/-- INIT and the two answers of the empty message give its tag (R203, R205). -/
theorem run_init_empty {s : State} {before between after : Nat} {rest : List Event} (hb : s.seq = .waitNone)
    (he : s.phase ≠ .error) (hk : keyLenLegal s.keyLen = true) (hlen : s.msgLen = 0)
    (hi : s.inputs = (asmCmd s.base .init :: awaitAnswer s.base before between ++ awaitAnswer s.base 0 after) ++ rest) :
    ∃ t, core.run (asmCmd s.base .init :: awaitAnswer s.base before between ++ awaitAnswer s.base 0 after).length s =
        .next t ∧
      MessageTagged s (Config.encryptBlock (keyOperand s) (tagInput s 0 0)) t := by
  rw [List.append_assoc] at hi
  obtain ⟨q, hrun⟩ := run_init hb he hk hi
  rw [finishSubkeys_empty _ (by exact hlen)] at hrun
  obtain ⟨hbase, hinputs⟩ := run_schedule hi hrun
  obtain ⟨u, hinit, hp, hq, hdrop, hbase, hinputs⟩ : ∃ u,
      core.run (asmCmd s.base .init :: awaitAnswer s.base before between).length s = .next u ∧
      u.pending = some ⟨keyOperand s, tagInput s 0 0⟩ ∧ u.seq = .waitTag ∧ u.cmdDrop = s.cmdDrop ∧ u.base = s.base ∧
      u.inputs = awaitAnswer s.base 0 after ++ rest :=
    ⟨_, hrun, by simp only [tagInput, hlen]; rfl, rfl, rfl, hbase, hinputs⟩
  obtain ⟨q', htag⟩ := run_awaitAnswer_response hp (by simp [hq]) hbase hinputs
  rw [responseResult_waitTag _ hq] at htag
  exact ⟨_, run_append hinit htag, rfl, rfl, rfl, rfl, hdrop⟩

/-! ### PUSH -/

/-- LDDATA of a block, PUSH and its WAIT: the request PUSH issues for the block is answered. -/
theorem run_push {s : State} {req : CipherRequest} {p : Block × Nat × Nat} {rest : List Event} (hb : s.seq = .waitNone)
    (ha : s.phase = .absorb) (hi : s.inputs = pushSchedule s.base p ++ rest)
    (hp : (pushBody { s with dataB := p.1 }).pending = some req)
    (hq : (pushBody { s with dataB := p.1 }).seq ≠ .waitNone) :
    ∃ q, core.run (pushSchedule s.base p).length s =
      .next (withEnv rest q (responseResult (Config.encryptBlock req.key req.block)
        (pushBody { s with dataB := p.1 }))) := by
  have hcmd : commandResult .push { s with dataB := p.1 } = pushBody { s with dataB := p.1 } :=
    accept_legal hb (by simp [ha]) ((legalIn_push_iff _).2 ha)
  rw [pushSchedule, List.append_assoc] at hi
  have hload := run_asmLddata hi
  obtain ⟨q, hpush⟩ := run_command_awaited
    (s := withEnv (asmCmd s.base .push :: awaitAnswer s.base p.2.1 p.2.2 ++ rest) .writeDone { s with dataB := p.1 })
    (i := .push) (req := req) (by rw [commandResult_withEnv, hcmd]; exact hp)
    (by rw [commandResult_withEnv, hcmd]; exact hq) rfl
  rw [commandResult_withEnv, hcmd, responseResult_withEnv] at hpush
  exact ⟨q, run_append (es := asmLddata s.base p.1) hload hpush⟩

/-- A block that is not the last is chained (R204). -/
theorem MessageOpen.run_push_chain {s₀ s : State} {i : Nat} {x : Block} (h : MessageOpen s₀ i x s)
    {p : Block × Nat × Nat} {rest : List Event} (hmore : i + 1 < (classify s₀.msgLen).blockCount.toNat)
    (hi : s.inputs = pushSchedule s₀.base p ++ rest) :
    ∃ t, core.run (pushSchedule s₀.base p).length s = .next t ∧
      MessageOpen s₀ (i + 1) (Config.encryptBlock (keyOperand s₀) (chainInput x p.1)) t := by
  have hbody : pushBody { s with dataB := p.1 } =
      issue (keyOperand s₀) (chainInput x p.1) .waitChain { s with dataB := p.1 } := by
    simp only [pushBody, moreBlocksFollow, h.blkIdx, h.nblk, hmore, decide_true, if_true, h.keyS, h.x]
  rw [← h.base] at hi ⊢
  obtain ⟨q, hrun⟩ := run_push h.idle h.phase hi (by rw [hbody]; rfl) (by rw [hbody]; exact nofun)
  rw [hbody] at hrun
  refine ⟨_, hrun, { h with idle := rfl, blkIdx := ?_, x := rfl }⟩
  rw [← h.blkIdx] at hmore ⊢
  exact toNat_add_one hmore.le

/-- The last block gives the tag (R205). -/
theorem MessageOpen.run_push_last {s₀ s : State} {i : Nat} {x : Block} (h : MessageOpen s₀ i x s)
    {p : Block × Nat × Nat} {rest : List Event} (hlast : ¬ i + 1 < (classify s₀.msgLen).blockCount.toNat)
    (hi : s.inputs = pushSchedule s₀.base p ++ rest) :
    ∃ t, core.run (pushSchedule s₀.base p).length s = .next t ∧
      MessageTagged s₀ (Config.encryptBlock (keyOperand s₀) (tagInput s₀ x p.1)) t := by
  have hbody : pushBody { s with dataB := p.1 } =
      issue (keyOperand s₀) (tagInput s₀ x p.1) .waitTag { s with dataB := p.1 } := by
    simp only [pushBody, moreBlocksFollow, h.blkIdx, h.nblk, hlast, decide_false, Bool.false_eq_true, if_false, h.keyS,
      h.x, h.lastComplete, h.remS, h.k1, h.k2, tagInput]
  rw [← h.base] at hi ⊢
  obtain ⟨q, hrun⟩ := run_push h.idle h.phase hi (by rw [hbody]; rfl) (by rw [hbody]; exact nofun)
  rw [hbody] at hrun
  exact ⟨_, hrun, rfl, rfl, rfl, rfl, h.cmdDrop⟩

/-- Blocks none of which is the last are chained in order (R152). -/
theorem MessageOpen.run_pushes_chain {s₀ s : State} {i : Nat} {x : Block} (h : MessageOpen s₀ i x s)
    (ps : List (Block × Nat × Nat)) {rest : List Event}
    (hmore : i + ps.length < (classify s₀.msgLen).blockCount.toNat)
    (hi : s.inputs = ps.flatMap (pushSchedule s₀.base) ++ rest) :
    ∃ t, core.run (ps.flatMap (pushSchedule s₀.base)).length s = .next t ∧
      MessageOpen s₀ (i + ps.length)
        ((ps.map (·.1)).foldl (fun x b => Config.encryptBlock (keyOperand s₀) (chainInput x b)) x) t := by
  induction ps generalizing i x s with
  | nil => exact ⟨s, rfl, h⟩
  | cons p ps ih =>
    rw [List.flatMap_cons, List.append_assoc] at hi
    rw [List.length_cons] at hmore
    obtain ⟨t, hpush, hopen⟩ := h.run_push_chain (by omega) hi
    obtain ⟨u, hrun, hdone⟩ := ih hopen (by omega) (run_schedule hi hpush).2
    refine ⟨u, run_append hpush hrun, ?_⟩
    rw [List.length_cons, Nat.add_comm ps.length 1, ← Nat.add_assoc]
    exact hdone

/-! ### The message -/

/-- The bytes pushed, as the bytes of the blocks (R218). -/
theorem pushedMessage_eq (n : BitVec 64) (ps : List (Block × Nat × Nat)) :
    pushedMessage n ps = ((ps.map (·.1)).flatMap bytesOf).take n.toNat := by
  rw [pushedMessage, List.flatMap_map]

/-- All the blocks of a nonempty message, pushed in order, give the document's CMAC: all but the last are chained, and the
last gives the tag. -/
theorem MessageOpen.run_blocks {s₀ s : State} (h : MessageOpen s₀ 0 0 s) (hlen : s₀.msgLen ≠ 0)
    {ps : List (Block × Nat × Nat)} (hcount : ps.length = (classify s₀.msgLen).blockCount.toNat) {rest : List Event}
    (hi : s.inputs = ps.flatMap (pushSchedule s₀.base) ++ rest) :
    ∃ t, core.run (ps.flatMap (pushSchedule s₀.base)).length s = .next t ∧
      MessageTagged s₀ (computeCmac Config.encryptBlock (keyOperand s₀) (pushedMessage s₀.msgLen ps)) t := by
  have hpos : ps ≠ [] := List.ne_nil_of_length_pos (hcount ▸ (classify_count_bounds s₀.msgLen).1)
  obtain ⟨qs, p, rfl⟩ : ∃ qs p, ps = qs ++ [p] := ⟨_, _, (List.dropLast_append_getLast hpos).symm⟩
  rw [List.length_append, List.length_singleton] at hcount
  rw [List.flatMap_append, List.flatMap_singleton] at hi ⊢
  rw [List.append_assoc] at hi
  obtain ⟨t, hchain, hopen⟩ := h.run_pushes_chain qs (by omega) hi
  obtain ⟨u, hlast, htag⟩ := hopen.run_push_last (by omega) (run_schedule hi hchain).2
  refine ⟨u, run_append hchain hlast, ?_⟩
  rw [pushedMessage_eq, List.map_append, List.map_singleton,
    computeCmac_of_blocks _ _ hlen _ _ (by rw [List.length_map, hcount])]
  exact htag

/-- The schedule of a message, with whatever follows it, runs to the tag of the bytes pushed. -/
theorem run_message {s : State} {before between after : Nat} {ps : List (Block × Nat × Nat)} {rest : List Event}
    (hb : s.seq = .waitNone) (he : s.phase ≠ .error) (hk : keyLenLegal s.keyLen = true)
    (hcount : ps.length = if s.msgLen = 0 then 0 else (classify s.msgLen).blockCount.toNat)
    (hi : s.inputs = messageSchedule s.base s.msgLen before between after ps ++ rest) :
    ∃ t, core.run (messageSchedule s.base s.msgLen before between after ps).length s = .next t ∧
      MessageTagged s (computeCmac Config.encryptBlock (keyOperand s) (pushedMessage s.msgLen ps)) t := by
  unfold messageSchedule at hi ⊢
  by_cases hlen : s.msgLen = 0
  · rw [if_pos hlen] at hi hcount ⊢
    rw [List.length_eq_zero_iff.1 hcount, List.flatMap_nil, List.append_nil] at hi ⊢
    obtain ⟨t, hrun, htag⟩ := run_init_empty (after := after) hb he hk hlen hi
    refine ⟨t, hrun, ?_⟩
    rw [pushedMessage_eq, List.map_nil, List.flatMap_nil, List.take_nil, computeCmac_nil]
    simp only [tagInput, hlen] at htag
    exact htag
  · rw [if_neg hlen] at hi hcount ⊢
    rw [List.append_nil] at hi ⊢
    rw [List.append_assoc] at hi
    obtain ⟨t, hinit, hopen⟩ := run_init_open hb he hk hlen hi
    obtain ⟨u, hblocks, htag⟩ := hopen.run_blocks hlen hcount (run_schedule hi hinit).2
    exact ⟨u, run_append hinit hblocks, htag⟩

/-- Settles O57: the run of the message, and the number of bytes pushed. -/
theorem messageTagIsCmac : Obligations.MessageTagIsCmac := by
  intro s before between after ps hb he hk hcount hi
  obtain ⟨t, hrun, htag⟩ := run_message (rest := []) hb he ((keyLenLegal_iff _).2 hk) hcount (by rw [hi, List.append_nil])
  refine ⟨t, hi ▸ hrun, htag.phase, htag.outValid, by simp [busy, htag.idle], htag.cmdDrop, ?_, htag.outB⟩
  rw [pushedMessage_eq, List.length_take, length_flatMap_bytesOf, List.length_map, hcount]
  by_cases hlen : s.msgLen = 0
  · simp [hlen]
  · have hpos := (classify_count_bounds s.msgLen).1
    have hfit := length_bounds_of_count hlen (Nat.sub_add_cancel hpos)
    rw [if_neg hlen]
    omega

end Sys2Proof.Machine

/-! PROOFS. The whole host program: LDKEY, LDLEN, the message and RDOUT (spec 30_encoding.md R97, R98). -/

namespace Sys2Proof.Machine

/-! ### LDKEY -/

/-- The key store `kb` after the words `js` of `ks` are written to their key registers. -/
def putKeyWords (ks : KeyStore) (js : List (Fin 8)) (kb : KeyStore) : KeyStore :=
  js.foldl (fun kb j => putWord kb j.val (wordAt ks j.val)) kb

/-- The bytes of a word of a register group are the group's (R75). -/
theorem extractLsb'_wordAt {n : Nat} (v : BitVec n) {j b : Nat} (hb : b < 4) (hj : 32 * j + 32 ≤ n) :
    (wordAt v j).extractLsb' (24 - 8 * b) 8 = byteAt v (4 * j + b) := by
  refine BitVec.eq_of_getLsbD_eq fun i hi => ?_
  have hin : 24 - 8 * b + i < 32 := by omega
  have hpos : n - 32 - 32 * j + (24 - 8 * b + i) = n - 8 - 8 * (4 * j + b) + i := by omega
  rw [BitVec.getLsbD_extractLsb', getLsbD_wordAt, getLsbD_byteAt, hpos, decide_eq_true hin, Bool.true_and]

/-- A word of `ks` written to its own key register brings its four bytes, and no other. -/
theorem byteAt_putWord_wordAt (ks kb : KeyStore) (j : Fin 8) {i : Nat} (hi : i < 32) :
    byteAt (putWord kb j.val (wordAt ks j.val)) i = if j.val = i / 4 then byteAt ks i else byteAt kb i := by
  have hj : 32 * j.val + 32 ≤ 256 := by omega
  split
  case isTrue h =>
    have hsplit : 4 * j.val + i % 4 = i := by omega
    rw [← hsplit, byteAt_putWord_same _ _ _ _ (by omega) hj, extractLsb'_wordAt _ (by omega) hj]
  case isFalse h => exact byteAt_putWord_other _ _ _ _ (by omega) hj (by omega) rfl

/-- After the words `js` are written, their bytes are those of `ks` and all others are kept. -/
theorem byteAt_putKeyWords (ks : KeyStore) (js : List (Fin 8)) (kb : KeyStore) {i : Nat} (hi : i < 32) :
    byteAt (putKeyWords ks js kb) i = if ∃ j ∈ js, j.val = i / 4 then byteAt ks i else byteAt kb i := by
  induction js generalizing kb with
  | nil => simp [putKeyWords]
  | cons j js ih =>
    have hcons : putKeyWords ks (j :: js) kb = putKeyWords ks js (putWord kb j.val (wordAt ks j.val)) := rfl
    rw [hcons, ih, byteAt_putWord_wordAt ks kb j hi]
    by_cases hmem : ∃ j ∈ js, j.val = i / 4
    · have hmem' : ∃ j' ∈ j :: js, j'.val = i / 4 := hmem.imp fun _ h => ⟨.tail _ h.1, h.2⟩
      rw [if_pos hmem, if_pos hmem']
    · simp only [List.exists_mem_cons_iff, hmem, or_false, if_false]

/-- The host writes of key words leave those words in the key store, and change nothing else of the core. -/
theorem run_keyWords (ks : KeyStore) (js : List (Fin 8)) {s : State} {rest : List Event}
    (hi : s.inputs = js.map (fun j => asmWr s.base (.key j) (wordAt ks j.val)) ++ rest) :
    ∃ q, core.run js.length s = .next { s with keyB := putKeyWords ks js s.keyB, inputs := rest, resp := q } := by
  induction js generalizing s with
  | nil =>
    refine ⟨s.resp, ?_⟩
    rw [show rest = s.inputs from hi.symm]
    rfl
  | cons j js ih =>
    have hstep := step_asmWr (r := .key j) nofun hi
    obtain ⟨q, hrun⟩ := ih (s := registerWritten (.key j) (wordAt ks j.val)
      { s with inputs := js.map (fun j => asmWr s.base (.key j) (wordAt ks j.val)) ++ rest, resp := .writeDone }) rfl
    exact ⟨q, (run_succ _ hstep).trans hrun⟩

/-- The key registers LDKEY writes. -/
def keyRegisters (k : Key) : List (Fin 8) := (List.finRange 8).filter fun j => decide (j.val < (k.length + 3) / 4)

/-- The key store LDKEY leaves begins with the key. -/
theorem take_bytesOf_putKeyWords {k : Key} (hk : k.length ≤ 32) (kb : KeyStore) :
    (bytesOf (putKeyWords (keyStoreOfBytes k) (keyRegisters k) kb)).take k.length = k := by
  refine List.ext_getElem (by rw [List.length_take, bytesOf_length]; omega) fun i _ hik => ?_
  have hin : i < 32 := by omega
  have hmem : ∃ j ∈ keyRegisters k, j.val = i / 4 :=
    ⟨⟨i / 4, by omega⟩, by simp [keyRegisters]; omega, rfl⟩
  rw [List.getElem_take, bytesOf_getElem, byteAt_putKeyWords _ _ _ hin, if_pos hmem, byteAt_keyStoreOfBytes _ _ hin]
  simp [hik]

/-- The CTRL word LDKEY and LDKEYI write: the key's length in KEYLEN and their IE (R97). -/
theorem ldkeyCtrl_fields (ie : Bool) {n : Nat} (hn : n ≤ 32) :
    let w := (if ie then (0x100 : Word) else 0) ||| BitVec.ofNat 32 n
    w.extractLsb' 0 6 = BitVec.ofNat 6 n ∧ w.getLsbD 8 = ie := by
  have hall : ∀ (ie : Bool) (n : Fin 33), let w := (if ie then (0x100 : Word) else 0) ||| BitVec.ofNat 32 n.val
      w.extractLsb' 0 6 = BitVec.ofNat 6 n.val ∧ w.getLsbD 8 = ie := by decide
  exact hall ie ⟨n, by omega⟩

/-- The run of LDKEY or LDKEYI. -/
theorem run_asmLdkey {s : State} {ie : Bool} {k : Key} {es rest : List Event} (hes : asmLdkey ie s.base k = some es)
    (hi : s.inputs = es ++ rest) :
    k.length ≤ 32 ∧ core.run es.length s = .next { s with
      keyLen := BitVec.ofNat 6 k.length, ie := ie,
      keyB := putKeyWords (keyStoreOfBytes k) (keyRegisters k) s.keyB, inputs := rest, resp := .writeDone } := by
  unfold asmLdkey at hes
  split at hes
  case isFalse => cases hes
  case isTrue hk =>
    cases hes
    refine ⟨hk, ?_⟩
    rw [List.append_assoc] at hi
    obtain ⟨q, hwords⟩ := run_keyWords (keyStoreOfBytes k) (keyRegisters k) hi
    have hctrl := step_asmWr (s := { s with
      keyB := putKeyWords (keyStoreOfBytes k) (keyRegisters k) s.keyB
      inputs := asmWr s.base .ctrl ((if ie then 0x100 else 0) ||| BitVec.ofNat 32 k.length) :: rest
      resp := q }) (r := .ctrl) nofun rfl
    obtain ⟨hlen, hie⟩ := ldkeyCtrl_fields ie hk
    simp only [registerWritten, writeCtrl, hlen, hie] at hctrl
    have hcount : (asmKeyWords s.base k).length = (keyRegisters k).length := List.length_map _
    rw [← hcount] at hwords
    exact run_append hwords (run_succ 0 hctrl)

/-- The key operand of the state LDKEY leaves is the key (R97). -/
theorem keyOperand_loaded {t : State} {k : Key} (hk : k.length ≤ 32) (hlen : t.keyLen = BitVec.ofNat 6 k.length)
    {kb : KeyStore} (hkey : t.keyB = putKeyWords (keyStoreOfBytes k) (keyRegisters k) kb) : keyOperand t = k := by
  have htoNat : t.keyLen.toNat = k.length := by rw [hlen, BitVec.toNat_ofNat, Nat.mod_eq_of_lt (by omega)]
  rw [keyOperand, htoNat, hkey, take_bytesOf_putKeyWords hk]

/-- Settles O56: the key words, then CTRL. -/
theorem loadKeySetsOperand : Obligations.LoadKeySetsOperand := by
  intro s ie k es rest hes hi
  obtain ⟨hk, hrun⟩ := run_asmLdkey hes hi
  exact ⟨_, _, hrun, rfl, keyOperand_loaded hk rfl rfl⟩

/-! ### LDLEN and RDOUT -/

/-- The run of LDLEN. -/
theorem run_asmLdlen {s : State} {n : BitVec 64} {rest : List Event} (hi : s.inputs = asmLdlen s.base n ++ rest) :
    core.run (asmLdlen s.base n).length s = .next { s with msgLen := n, inputs := rest, resp := .writeDone } := by
  have hlo := step_asmWr (r := .msgLenLo) nofun hi
  have hhi := step_asmWr (r := .msgLenHi) (v := highWord n)
    (s := registerWritten .msgLenLo (lowWord n)
      { s with inputs := asmWr s.base .msgLenHi (highWord n) :: rest, resp := .writeDone }) nofun rfl
  refine (run_succ 1 hlo).trans ((run_succ 0 hhi).trans ?_)
  simp only [registerWritten, writeMsgLenLo, writeMsgLenHi, lowWord_append, highWord_append_lowWord, run_zero]

/-- The reads of OUT words, one after another: after each the host holds that word, and the core is unchanged. -/
theorem run_readOut (js : List (Fin 4)) {s : State} (hi : s.inputs = js.map fun j => asmRd s.base (.out j)) :
    (∃ q, core.run js.length s = .next (withEnv [] q s)) ∧
    ∀ (i : Nat) (h : i < js.length), ∃ es,
      core.run (i + 1) s = .next (withEnv es (.readData (readReg (.out js[i]) s)) s) := by
  induction js generalizing s with
  | nil => exact ⟨⟨s.resp, by rw [← show s.inputs = [] from hi]; rfl⟩, fun i h => absurd h (Nat.not_lt_zero i)⟩
  | cons j js ih =>
    have hstep := step_asmRd (r := .out j) hi
    obtain ⟨⟨q, hall⟩, hword⟩ := ih (s := withEnv (js.map fun j => asmRd s.base (.out j))
      (.readData (readReg (.out j) s)) s) rfl
    refine ⟨⟨q, (run_succ _ hstep).trans hall⟩, fun i h => ?_⟩
    cases i with
    | zero => exact ⟨_, run_succ 0 hstep⟩
    | succ i =>
      obtain ⟨es, hrun⟩ := hword i (Nat.lt_of_succ_lt_succ h)
      exact ⟨es, (run_succ _ hstep).trans hrun⟩

/-! ### The host program -/

/-- The blocks of a message with their polls carry the message (R98). -/
theorem pushedMessage_messageBlocks {m : List Byte} (hlen : m.length < 2 ^ 64) (polls : Nat → Nat × Nat) :
    pushedMessage (BitVec.ofNat 64 m.length)
      (if m = [] then [] else (List.range ((m.length + 15) / 16)).map fun i => (messageBlock m i, polls i)) = m := by
  rw [pushedMessage_eq, toNat_ofNat_length hlen]
  split
  case isTrue hm => simp [hm]
  case isFalse hm =>
    rw [List.map_map]
    exact take_flatMap_messageBlock m

/-- The host pushes as many blocks as INIT counts (R98, R130). -/
theorem length_messageBlocks {m : List Byte} (hlen : m.length < 2 ^ 64) (polls : Nat → Nat × Nat) :
    (if m = [] then [] else (List.range ((m.length + 15) / 16)).map fun i => (messageBlock m i, polls i)).length =
      if BitVec.ofNat 64 m.length = 0 then 0 else (classify (BitVec.ofNat 64 m.length)).blockCount.toNat := by
  have hzero := ofNat_length_eq_zero_iff hlen
  split
  case isTrue hm => rw [if_pos (hzero.2 hm), List.length_nil]
  case isFalse hm =>
    rw [if_neg (mt hzero.1 hm), toNat_blockCount_classify (mt hzero.1 hm), toNat_ofNat_length hlen, List.length_map,
      List.length_range]

/-- LDKEY and LDLEN make the key INIT's operand and the length its message's length. -/
theorem run_load {s : State} {k : Key} {n : BitVec 64} {es rest : List Event} (hes : asmLdkey false s.base k = some es)
    (hi : s.inputs = es ++ asmLdlen s.base n ++ rest) :
    ∃ t, core.run (es ++ asmLdlen s.base n).length s = .next t ∧ t.seq = s.seq ∧ t.phase = s.phase ∧
      t.keyLen = BitVec.ofNat 6 k.length ∧ t.msgLen = n ∧ keyOperand t = k := by
  rw [List.append_assoc] at hi
  obtain ⟨hk, hkey⟩ := run_asmLdkey hes hi
  have hlen := run_asmLdlen (n := n) (rest := rest) (s := { s with
    keyLen := BitVec.ofNat 6 k.length, ie := false
    keyB := putKeyWords (keyStoreOfBytes k) (keyRegisters k) s.keyB
    inputs := asmLdlen s.base n ++ rest, resp := .writeDone }) rfl
  exact ⟨_, run_append hkey hlen, rfl, rfl, rfl, rfl, keyOperand_loaded hk rfl rfl⟩

/-- LDKEY, LDLEN and the message schedule run to the tag of the message. -/
theorem run_program {s : State} {k : Key} {m : List Byte} {es rest : List Event} {before between after : Nat}
    {polls : Nat → Nat × Nat} (hb : s.seq = .waitNone) (he : s.phase ≠ .error)
    (hk : k.length = 16 ∨ k.length = 24 ∨ k.length = 32) (hlen : m.length < 2 ^ 64)
    (hes : asmLdkey false s.base k = some es) {program : List Event}
    (hprogram : program = es ++ asmLdlen s.base (BitVec.ofNat 64 m.length) ++
      messageSchedule s.base (BitVec.ofNat 64 m.length) before between after
        (if m = [] then [] else (List.range ((m.length + 15) / 16)).map fun i => (messageBlock m i, polls i)))
    (hi : s.inputs = program ++ rest) :
    ∃ s₀ t, core.run program.length s = .next t ∧ MessageTagged s₀ (computeCmac Config.encryptBlock k m) t := by
  subst hprogram
  rw [List.append_assoc] at hi
  obtain ⟨s₀, hload, hseq, hphase, hkeyLen, hmsgLen, hoperand⟩ := run_load hes hi
  obtain ⟨hbase, hinputs⟩ := run_schedule hi hload
  rw [← hbase, ← hmsgLen] at hinputs
  have hlegal : keyLenLegal s₀.keyLen = true :=
    (keyLenLegal_iff _).2 (by rcases hk with h | h | h <;> simp [hkeyLen, h])
  obtain ⟨t, hrun, htag⟩ := run_message (hseq.trans hb) (hphase ▸ he) hlegal
    (hmsgLen ▸ length_messageBlocks hlen polls) hinputs
  rw [hoperand, hmsgLen, pushedMessage_messageBlocks hlen] at htag
  rw [hbase, hmsgLen] at hrun
  exact ⟨s₀, t, run_append hload hrun, htag⟩

/-- Settles O58: the program's run, then RDOUT, whose four words are the block's. -/
theorem hostProgramComputesCmac : Obligations.HostProgramComputesCmac := by
  intro s k m es program before between after polls hb he hk hlen hes hprogram hi
  obtain ⟨s₀, t, hrun, htag⟩ := run_program hb he hk hlen hes hprogram hi
  obtain ⟨hbase, hinputs⟩ := run_schedule hi hrun
  rw [← hbase] at hinputs
  obtain ⟨⟨q, hall⟩, hword⟩ := run_readOut (List.finRange 4) hinputs
  refine ⟨withEnv [] q t, fun j => readReg (.out j) t, ?_, htag.phase, htag.outValid, ?_, htag.outB,
    block_eq_words t.outB, fun j => ?_⟩
  · rw [hi]
    exact run_append (fs := asmRdout s.base) hrun hall
  · simp [busy, withEnv, htag.idle]
  · obtain ⟨es, hread⟩ := hword j.val (by simp)
    rw [List.getElem_finRange] at hread
    exact ⟨withEnv es _ t, by rw [Nat.add_assoc, run_add _ _ hrun]; exact hread, htag.phase, rfl⟩

end Sys2Proof.Machine

/-! PROOFS. What a step may change and when it stops: ERROR, IP, a command in flight, the host's registers, and the wait
for an answer (spec 60_exceptions.md; 44_commands.md; 70_reset_and_hazards.md R291). Each statement is read off the
effects of one step. -/

namespace Sys2Proof.Machine

/-! ### ERROR -/

/-- In ERROR a command word changes CMD_DROP only, unless it is CLEAR (R191). -/
theorem WordEffect.of_error {w : Word} {s t : State} (h : WordEffect w s t) (he : s.phase = .error) :
    t = s ∨ t = drop s ∨ w = encode .clear := by
  cases h with
  | nop => exact .inl rfl
  | dropped => exact .inr (.inl rfl)
  | raised _ _ hne | keyRefused _ _ hne | opened _ _ hne | doubled _ _ hne => exact absurd he hne
  | chained _ _ ha | finished _ _ ha => exact nomatch he.symm.trans ha
  | cleared hw => exact .inr (.inr hw)

/-- Settles O22: in ERROR no request is pending, words other than CLEAR are dropped, and no register write reaches the
record. -/
theorem errorLeftOnlyByClearOrReset : Obligations.ErrorLeftOnlyByClearOrReset := by
  intro s t hinv he hstep
  cases step_effect hstep with
  | rest | answered => exact .inl ⟨he, rfl, rfl⟩
  | written r v rest =>
    obtain ⟨hphase, -, -, hcode, hinfo, -⟩ := registerWritten_frame r v { s with inputs := rest, resp := .writeDone }
    exact .inl ⟨hphase.trans he, hcode, hinfo⟩
  | command w rest _ hi hw =>
    rcases hw.of_error he with rfl | rfl | rfl
    · exact .inl ⟨he, rfl, rfl⟩
    · exact .inl ⟨he, rfl, rfl⟩
    · exact .inr (.inr ⟨rest, hi⟩)
  | cipherOk _ _ _ hp | cipherErr _ _ _ _ hp =>
    exact nomatch he.symm.trans (hinv.absorb_of_busy (hinv.busy_of_pending hp))
  | reset rest hi => exact .inr (.inl ⟨rest, hi⟩)

/-! ### Stops -/

/-- An Ok answer to an awaited request is a step. -/
theorem step_cipherOk {s : State} {req : CipherRequest} {rest : List Event} (hi : s.inputs = .cipher .ok :: rest)
    (hp : s.pending = some req) (hb : s.seq ≠ .waitNone) :
    step s = .next (responseResult (Config.encryptBlock req.key req.block) { s with inputs := rest }) := by
  rw [step_cons hi]
  exact (cipherStep_ok (s := { s with inputs := rest }) hp).trans (respondOk_eq _ hb)

/-- Settles O49: every host access, reset, awaited Ok answer and admitted Err answer is a step. -/
theorem onlyDisabledCipherStepsStop : Obligations.OnlyDisabledCipherStepsStop := by
  intro s hinv hstop
  cases hi : s.inputs with
  | nil => exact absurd (by simp [step, agentStep, hi]) (hstop s)
  | cons e rest =>
    cases e with
    | host a =>
      obtain ⟨t, ht⟩ := busStep_next a { s with inputs := rest }
      exact absurd ((step_cons hi).trans ht) (hstop t)
    | reset => exact absurd (step_cons hi) (hstop _)
    | cipher r =>
      cases hp : s.pending with
      | none => exact .inl ⟨r, rest, rfl, rfl⟩
      | some req =>
        cases r with
        | ok => exact absurd (step_cipherOk hi hp (hinv.busy_of_pending hp)) (hstop _)
        | err c =>
          cases hf : s.cipherFaults with
          | false => exact .inr ⟨c, rest, rfl, rfl⟩
          | true => exact absurd ((step_cons hi).trans (cipherStep_err (s := { s with inputs := rest }) hp hf c)) (hstop _)

/-! ### IP -/

/-- A write to a register other than STATUS keeps IP. -/
theorem registerWritten_ip {r : Reg} (hr : r ≠ .status) (v : Word) (s : State) : (registerWritten r v s).ip = s.ip := by
  cases r with
  | status => exact absurd rfl hr
  | _ => rfl

/-- An Ok response keeps IP or sets it with the end of BUSY (R203 to R205). -/
theorem responseResult_ip (c : Block) (s : State) :
    (responseResult c s).ip = s.ip ∨ ((responseResult c s).ip = true ∧ (responseResult c s).seq = .waitNone) := by
  unfold responseResult
  split
  case h_1 =>
    rw [finishSubkeys_eq]
    split
    · exact .inl rfl
    · exact .inr ⟨rfl, rfl⟩
  case h_2 | h_3 => exact .inr ⟨rfl, rfl⟩
  case h_4 => exact .inl rfl

/-- What raises IP: an entry to ERROR, the end of BUSY, or DOUBLE (R254). -/
theorem ip_rises {s t : State} (hinv : Inv s) (hstep : step s = .next t) (hs : s.ip = false) (ht : t.ip = true) :
    (s.phase ≠ .error ∧ t.phase = .error) ∨
    (∃ rest, s.inputs = .cipher .ok :: rest ∧ s.seq ≠ .waitNone ∧ t.seq = .waitNone) ∨
    ∃ rest, s.inputs = .host (.write (s.base + 0x0C) 0x00000003) :: rest ∧ t.outB = dbl s.dataB := by
  cases step_effect hstep with
  | rest | answered => exact nomatch hs.symm.trans ht
  | written r v rest =>
    by_cases hr : r = .status
    · subst hr
      simp [registerWritten, hs] at ht
    · rw [registerWritten_ip hr] at ht
      exact nomatch hs.symm.trans ht
  | command w rest _ hi hw =>
    cases hw with
    | nop | dropped | opened | chained | finished => exact nomatch hs.symm.trans ht
    | cleared => exact nomatch ht
    | raised _ _ he | keyRefused _ _ he => exact .inl ⟨he, rfl⟩
    | doubled hw =>
      subst hw
      exact .inr (.inr ⟨rest, hi, rfl⟩)
  | cipherOk req rest hi _ hb =>
    rcases responseResult_ip (Config.encryptBlock req.key req.block) { s with inputs := rest } with hip | ⟨-, hseq⟩
    · rw [hip] at ht
      exact nomatch hs.symm.trans ht
    · exact .inr (.inl ⟨rest, hi, hb, hseq⟩)
  | cipherErr _ _ _ _ hp =>
    refine .inl ⟨fun he => ?_, rfl⟩
    exact nomatch he.symm.trans (hinv.absorb_of_busy (hinv.busy_of_pending hp))
  | reset => exact nomatch ht

/-- What clears IP: reset, CLEAR, or bit 6 of a STATUS write (R30, R280). -/
theorem ip_falls {s t : State} (hstep : step s = .next t) (hs : s.ip = true) (ht : t.ip = false) :
    (∃ rest, s.inputs = .reset :: rest) ∨
    (∃ rest, s.inputs = .host (.write (s.base + 0x0C) 0x00000004) :: rest ∧ s.seq = .waitNone) ∨
    ∃ v rest, s.inputs = .host (.write (s.base + 0x08) v) :: rest ∧ v.getLsbD 6 = true := by
  cases step_effect hstep with
  | rest | answered => exact nomatch hs.symm.trans ht
  | written r v rest _ hi =>
    by_cases hr : r = .status
    · subst hr
      simp only [registerWritten, writeStatus_ip, hs, Bool.true_and, Bool.not_eq_false'] at ht
      exact .inr (.inr ⟨v, rest, hi, ht⟩)
    · rw [registerWritten_ip hr] at ht
      exact nomatch hs.symm.trans ht
  | command w rest _ hi hw =>
    cases hw with
    | nop | dropped | opened | chained | finished => exact nomatch hs.symm.trans ht
    | raised | keyRefused | doubled => exact nomatch ht
    | cleared hw hb =>
      subst hw
      exact .inr (.inl ⟨rest, hi, hb⟩)
  | cipherOk req rest =>
    rcases responseResult_ip (Config.encryptBlock req.key req.block) { s with inputs := rest } with hip | ⟨hip, -⟩
    · rw [hip] at ht
      exact nomatch hs.symm.trans ht
    · exact nomatch hip.symm.trans ht
  | cipherErr => exact nomatch ht
  | reset rest hi => exact .inl ⟨rest, hi⟩

/-- Settles O50: the rises and the falls, and the two writes that clear IP. -/
theorem ipChangesOnlyAsRuled : Obligations.IpChangesOnlyAsRuled :=
  ⟨fun _ _ => ip_rises, fun _ _ => ip_falls, fun v s => ⟨_, statusWriteClearsFlags v s, rfl⟩,
    fun s hb => ⟨clearAll s, exec_clear hb, rfl⟩⟩

/-! ### A command in flight -/

/-- While BUSY a command word changes CMD_DROP at most (R191). -/
theorem WordEffect.of_busy {w : Word} {s t : State} (h : WordEffect w s t) (hb : s.seq ≠ .waitNone) :
    t = s ∨ t = drop s := by
  cases h with
  | nop => exact .inl rfl
  | dropped => exact .inr rfl
  | raised _ hn | keyRefused _ hn | opened _ hn | chained _ hn | finished _ hn | doubled _ hn | cleared _ hn =>
    exact absurd hn hb

/-- Settles O51: an access that is no command reaches no field of the command in flight, and a command is dropped. -/
theorem hostAccessLeavesInFlightCommand : Obligations.HostAccessLeavesInFlightCommand := by
  intro s a rest hb hi
  obtain ⟨t, hbus⟩ := busStep_next a { s with inputs := rest }
  have hstep : step s = .next t := (step_cons hi).trans hbus
  refine ⟨t, hstep, ?_⟩
  cases step_effect hstep with
  | rest | answered => exact ⟨rfl, rfl, rfl, rfl, rfl, rfl, rfl, rfl, rfl, rfl, rfl, rfl, rfl, rfl, rfl, rfl⟩
  | written r v rest' =>
    obtain ⟨hphase, hseq, hpending, hcode, hinfo, hkeyS, hlenS, hremS, hk1, hk2, hx, hnblk, hblkIdx, hlast, hout,
      hvalid, -⟩ := registerWritten_frame r v { s with inputs := rest', resp := .writeDone }
    exact ⟨hpending, hseq, hphase, hkeyS, hlenS, hremS, hk1, hk2, hx, hnblk, hblkIdx, hlast, hout, hvalid, hcode, hinfo⟩
  | command w rest' _ _ hw =>
    rcases hw.of_busy hb with rfl | rfl <;>
      exact ⟨rfl, rfl, rfl, rfl, rfl, rfl, rfl, rfl, rfl, rfl, rfl, rfl, rfl, rfl, rfl, rfl⟩
  | cipherOk _ _ hi' | cipherErr _ _ _ hi' | reset _ hi' => exact nomatch hi.symm.trans hi'

/-- An Ok response reads and writes no register the host writes. -/
theorem responseResult_withHostRegisters (c : Block) (kl : BitVec 6) (ie : Bool) (ml : BitVec 64) (kb : KeyStore)
    (db : Block) (s : State) :
    responseResult c (withHostRegisters kl ie ml kb db s) = withHostRegisters kl ie ml kb db (responseResult c s) := by
  have hseq : (withHostRegisters kl ie ml kb db s).seq = s.seq := rfl
  unfold responseResult
  rw [hseq]
  cases s.seq with
  | waitL =>
    simp only [finishSubkeys_eq]
    rw [apply_ite (withHostRegisters kl ie ml kb db)]
    rfl
  | waitChain | waitTag | waitNone => rfl

/-- Settles O52: by the request, the answer, and what the sequencer awaits. -/
theorem responseIgnoresHostRegisters : Obligations.ResponseIgnoresHostRegisters := by
  intro r s kl ie ml kb db
  cases hp : s.pending with
  | none => simp only [cipherStep, hp, withHostRegisters]
  | some req =>
    have hp' : (withHostRegisters kl ie ml kb db s).pending = some req := hp
    cases r with
    | ok =>
      rw [cipherStep_ok hp, cipherStep_ok hp']
      by_cases hb : s.seq = .waitNone
      · have hb' : (withHostRegisters kl ie ml kb db s).seq = .waitNone := hb
        simp only [respondOk, hb, hb']
      · rw [respondOk_eq _ hb, respondOk_eq _ (by exact hb), responseResult_withHostRegisters]
    | err c =>
      cases hf : s.cipherFaults with
      | true =>
        rw [cipherStep_err hp hf, cipherStep_err hp' hf]
        rfl
      | false =>
        have hf' : (withHostRegisters kl ie ml kb db s).cipherFaults = false := hf
        simp only [cipherStep, hp, hp', hf, hf', Bool.false_eq_true, if_false]

/-! ### The host's registers -/

/-- Settles O53: commands, answers and reads change nothing outside the core, and the one register besides the host's
whose write has an effect is STATUS. -/
theorem hostRegistersChangeOnlyByHostWrite : Obligations.HostRegistersChangeOnlyByHostWrite := by
  intro s t hstep hreset hwrite
  cases step_effect hstep with
  | rest | answered | cipherErr => exact ⟨rfl, rfl, rfl, rfl, rfl⟩
  | written r v rest _ hi =>
    have hoff := hwrite (regOffset r) v rest
    cases r with
    | ctrl | msgLenLo | msgLenHi => exact absurd hi (hoff (by decide))
    | key j | data j => exact absurd hi (hoff (by simp only [regOffset]; omega))
    | status | cmd | id | errInfo | nblkLo | nblkHi | blkIdxLo | blkIdxHi | out => exact ⟨rfl, rfl, rfl, rfl, rfl⟩
  | command _ _ _ _ hw =>
    obtain ⟨hkeyLen, hie, hmsgLen, hkeyB, hdataB, -⟩ := hw.sameOutsideCore
    exact ⟨hkeyLen, hie, hmsgLen, hkeyB, hdataB⟩
  | cipherOk req rest =>
    obtain ⟨hkeyLen, hie, hmsgLen, hkeyB, hdataB, -⟩ :=
      responseResult_sameOutsideCore (Config.encryptBlock req.key req.block) { s with inputs := rest }
    exact ⟨hkeyLen, hie, hmsgLen, hkeyB, hdataB⟩
  | reset rest hi => exact absurd hi (hreset rest)

/-! ### The wait for an answer -/

/-- Every Ok response but that of an empty message's WAIT_L ends BUSY with IP set, in ABSORB or DONE (R194). -/
theorem responseResult_ends_busy (c : Block) {s : State} (ha : s.phase = .absorb) (hb : s.seq ≠ .waitNone)
    (hlen : s.seq = .waitL → s.lenS ≠ 0) :
    let t := responseResult c s
    busy t = false ∧ t.ip = true ∧ (t.phase = .absorb ∨ t.phase = .done) := by
  unfold responseResult
  split
  case h_1 hq =>
    rw [finishSubkeys_nonempty c (by exact hlen hq)]
    exact ⟨rfl, rfl, .inl ha⟩
  case h_2 => exact ⟨rfl, rfl, .inl ha⟩
  case h_3 => exact ⟨rfl, rfl, .inr rfl⟩
  case h_4 hq => exact absurd hq hb

/-- Settles O55: the first answer ends BUSY, or it was the empty message's `L` and the tag comes with the second. -/
theorem busyEndsWithinTwoAnswers : Obligations.BusyEndsWithinTwoAnswers := by
  intro s rest hinv hb hi
  have ha := hinv.absorb_of_busy hb
  obtain ⟨req, hp⟩ := Option.ne_none_iff_exists'.1 (mt hinv.seqPending.2 hb)
  have hfirst := step_cipherOk hi hp hb
  by_cases hempty : s.seq = .waitL ∧ s.lenS = 0
  · obtain ⟨hq, hlen⟩ := hempty
    generalize Config.encryptBlock req.key req.block = l at hfirst
    have htag : ∃ u req', responseResult l { s with inputs := .cipher .ok :: rest } = u ∧ u.phase = .absorb ∧
        u.seq = .waitTag ∧ u.pending = some req' ∧ u.inputs = .cipher .ok :: rest := by
      simp only [responseResult, hq]
      rw [finishSubkeys_empty l (by exact hlen)]
      exact ⟨_, _, rfl, ha, rfl, rfl, rfl⟩
    obtain ⟨u, req', heq, ha', hq', hp', hi'⟩ := htag
    rw [heq] at hfirst
    have hsecond := step_cipherOk hi' hp' (by simp [hq'])
    exact ⟨_, .inr ((run_succ 1 hfirst).trans (run_succ 0 hsecond)),
      responseResult_ends_busy _ ha' (by simp [hq']) (by simp [hq'])⟩
  · exact ⟨_, .inl (run_succ 0 hfirst), responseResult_ends_busy _ ha hb fun hq hlen => hempty ⟨hq, hlen⟩⟩

/-- A step that ends BUSY takes an answer or a reset (R291). -/
theorem busy_ended_by {s t : State} (hb : s.seq ≠ .waitNone) (hstep : step s = .next t) (ht : t.seq = .waitNone) :
    (∃ r rest, s.inputs = .cipher r :: rest) ∨ ∃ rest, s.inputs = .reset :: rest := by
  cases hi : s.inputs with
  | nil =>
    rw [step, agentStep, hi] at hstep
    cases hstep
    exact absurd ht hb
  | cons e rest =>
    cases e with
    | cipher r => exact .inl ⟨r, rest, rfl⟩
    | reset => exact .inr ⟨rest, rfl⟩
    | host a =>
      obtain ⟨u, hstep', -, hseq, -⟩ := hostAccessLeavesInFlightCommand s a rest hb hi
      cases hstep.symm.trans hstep'
      exact absurd (hseq.symm.trans ht) hb

/-- With host events only, BUSY and its request stay (R54). -/
theorem host_step_keeps_request {s t : State} (hb : s.seq ≠ .waitNone) (hhost : ∀ e ∈ s.inputs, isHostEvent e = true)
    (hstep : step s = .next t) :
    t.seq = s.seq ∧ t.pending = s.pending ∧ ∀ e ∈ t.inputs, isHostEvent e = true := by
  obtain ⟨-, -, hinputs⟩ := stepKeepsParameters s t hstep
  refine (and_assoc.1 ⟨?_, fun e he => hhost e (List.mem_of_mem_tail (hinputs ▸ he))⟩)
  cases hi : s.inputs with
  | nil =>
    rw [step, agentStep, hi] at hstep
    cases hstep
    exact ⟨rfl, rfl⟩
  | cons e rest =>
    cases e with
    | cipher | reset => cases hhost _ (hi ▸ List.mem_cons_self)
    | host a =>
      obtain ⟨u, hstep', hpending, hseq, -⟩ := hostAccessLeavesInFlightCommand s a rest hb hi
      cases hstep.symm.trans hstep'
      exact ⟨hseq, hpending⟩

/-- Under weak fairness a run of at most as many steps as there are events ends BUSY: a state that stops or has no event
left has no request pending, and every step keeps the invariant and the fairness (R291). -/
theorem busy_ends_fairly (es : List Event) {s : State} (hi : s.inputs = es) (hinv : Inv s) (hfair : WeaklyFair s) :
    ∃ n t, n ≤ es.length ∧ core.run n s = .next t ∧ busy t = false := by
  induction es generalizing s with
  | nil =>
    have hseq : s.seq = .waitNone := hinv.seqPending.2 ((weaklyFair_rest hi).1 hfair)
    exact ⟨0, s, Nat.le_refl 0, rfl, by simp [busy, hseq]⟩
  | cons e rest ih =>
    by_cases hstop : ∃ t, step s = .next t
    · obtain ⟨t, hstep⟩ := hstop
      obtain ⟨-, -, hinputs⟩ := stepKeepsParameters s t hstep
      obtain ⟨n, u, hn, hrun, hdone⟩ :=
        ih (by rw [hinputs, hi, List.tail_cons]) (stepKeepsInvariant s t hinv hstep) (weaklyFair_step hfair hstep)
      exact ⟨n + 1, u, Nat.succ_le_succ hn, (run_succ n hstep).trans hrun, hdone⟩
    · have hseq : s.seq = .waitNone := hinv.seqPending.2 (weaklyFair_stop hfair (not_exists.1 hstop))
      exact ⟨0, s, Nat.zero_le _, rfl, by simp [busy, hseq]⟩

/-- Settles O60: one step, every run of host events, and every fair schedule. -/
theorem waitEndsOnlyByAnswerAndFairly : Obligations.WaitEndsOnlyByAnswerAndFairly := by
  refine ⟨fun _ _ => busy_ended_by, fun s t n hb hhost hrun => ?_, fun s => busy_ends_fairly s.inputs rfl⟩
  have hkept : t.seq = s.seq ∧ t.pending = s.pending ∧ ∀ e ∈ t.inputs, isHostEvent e = true := by
    refine run_keeps (P := fun u => u.seq = s.seq ∧ u.pending = s.pending ∧ ∀ e ∈ u.inputs, isHostEvent e = true) ?_
      ⟨rfl, rfl, hhost⟩ hrun
    rintro u v ⟨hseq, hpending, hhost⟩ hstep
    obtain ⟨hseq', hpending', hhost'⟩ := host_step_keeps_request (hseq ▸ hb) hhost hstep
    exact ⟨hseq'.trans hseq, hpending'.trans hpending, hhost'⟩
  obtain ⟨hseq, hpending, -⟩ := hkept
  exact ⟨by simp [busy, hseq, hb], hpending⟩

end Sys2Proof.Machine

/-! PROOFS. Command words: which words they are, the acceptance procedure check by check, and the execute steps of INIT and
PUSH (spec 30_encoding.md R92; 44_commands.md R190, R197, R200), then the cipher agent's step and reset (10_state.md R51;
70_reset_and_hazards.md R280). -/

namespace Sys2Proof.Machine

/-! ### Decoding -/

/-- Settles O1: ten closed words. -/
theorem commandWordsDecode : Obligations.CommandWordsDecode := by
  unfold Obligations.CommandWordsDecode
  decide

/-- Settles O2: the law of each command's word, and a word that decodes to a command is that word. -/
theorem decodeSelectsWholeWords : Obligations.DecodeSelectsWholeWords := by
  refine ⟨(forall_instr_iff _).2 ⟨Laws.Encoding.nop, Laws.Encoding.init, Laws.Encoding.push, Laws.Encoding.double,
    Laws.Encoding.clear⟩, fun w i => ⟨eq_encode_of_decode, fun h => h ▸ decode_encode i⟩⟩

/-! ### The acceptance procedure -/

/-- An illegal word has a reserved bit set or an opcode that is none of the four after NOP (R93). -/
theorem illegal_fields {w : Word} {why : IllegalWord} (hd : decode w = .illegal why) :
    w.extractLsb' 4 28 ≠ 0 ∨ w.extractLsb' 0 4 ∉ [0x1, 0x2, 0x3, 0x4] := by
  rcases (exists_illegal_iff_fields w).1 ⟨why, hd⟩ with hop | hrsvd
  · refine .inr fun hmem => ?_
    have hsmall : ∀ op ∈ [(0x1 : BitVec 4), 0x2, 0x3, 0x4], op.toNat < 5 := by decide
    exact Nat.not_lt.2 hop (hsmall _ hmem)
  · exact .inl hrsvd

/-- A command's word other than NOP's passes the encoding check of R190. -/
theorem encode_fields {i : Instr} (hn : i ≠ .nop) :
    ¬ ((encode i).extractLsb' 4 28 ≠ 0 ∨ (encode i).extractLsb' 0 4 ∉ [0x1, 0x2, 0x3, 0x4]) := by
  cases i with
  | nop => exact absurd rfl hn
  | init | push | double | clear => decide

/-- What a command that is not dropped does, in the order of R190's last checks. -/
theorem exec_accepted {i : Instr} {s : State} (hn : i ≠ .nop) (hb : s.seq = .waitNone)
    (he : s.phase = .error → i = .clear) :
    exec i s =
      if legalIn .push s.phase = false ∧ encode i = 0x2 then .next (raise (.sequenceError 0x2 s.phase) s)
      else if encode i = 0x1 then .next (initBody s)
      else if encode i = 0x2 then .next (pushBody s)
      else if encode i = 0x3 then .next (doubleBody s)
      else .next (clearAll s) := by
  cases i with
  | nop => exact absurd rfl hn
  | init =>
    rw [if_neg fun h => nomatch h.2]
    exact exec_init hb fun h => nomatch he h
  | double =>
    rw [if_neg fun h => nomatch h.2]
    exact exec_double hb fun h => nomatch he h
  | clear =>
    rw [if_neg fun h => nomatch h.2]
    exact exec_clear hb
  | push =>
    by_cases ha : s.phase = .absorb
    · rw [if_neg (by simp [ha, legalIn])]
      exact exec_push_absorb hb ha
    · have hillegal : legalIn .push s.phase = false := Bool.eq_false_iff.2 (mt (legalIn_push_iff _).1 ha)
      rw [if_pos ⟨hillegal, rfl⟩, exec_eq]
      exact congrArg _ (accept_illegal hb (fun h => nomatch he h) hillegal)

/-- Settles O4: NOP, the two drops, then the word's decoding. -/
theorem acceptanceRunsChecksInOrder : Obligations.AcceptanceRunsChecksInOrder := by
  intro w s
  split
  case isTrue hnop => exact hnop ▸ (acceptWord_encode .nop s).trans (exec_nop s)
  case isFalse hnop =>
    split
    case isTrue hb => exact acceptWord_eq_drop hnop (.inl hb)
    case isFalse hb =>
      split
      case isTrue he => exact acceptWord_eq_drop hnop (.inr he)
      case isFalse he =>
        have hb : s.seq = .waitNone := Classical.not_not.1 hb
        have he : s.phase = .error → w = encode .clear := fun h => by_contra fun hw => he ⟨h, hw⟩
        cases hd : decode w with
        | illegal why =>
          have hnotError : s.phase ≠ .error := fun h => nomatch (he h ▸ hd.symm).trans (decode_encode .clear)
          rw [if_pos (illegal_fields hd), acceptWord_illegal hd, rejectWord_eq, if_neg (by simp [hb, hnotError])]
        | command i =>
          obtain rfl := eq_encode_of_decode hd
          have hi : i ≠ .nop := fun h => hnop (h ▸ rfl)
          have he : s.phase = .error → i = .clear := fun h => by
            cases (decode_encode i).symm.trans (he h ▸ decode_encode .clear)
            rfl
          rw [if_neg (encode_fields hi), acceptWord_encode, exec_accepted hi hb he]

/-- Settles O5: the write reaches CMD, and acceptance goes by the word's decoding. -/
theorem commandWriteRunsDecodedCommand : Obligations.CommandWriteRunsDecodedCommand := by
  refine ⟨fun s w rest hi => ?_, fun s w hw => ?_⟩
  · have hstep : step s = acceptWord w { s with inputs := rest, resp := .writeDone } :=
      (step_cons hi).trans (busStep_write_reg .cmd w { s with inputs := rest })
    rw [hstep]
    cases hd : decode w <;> simp only [acceptWord, hd]
  · have hword : tableWord 32 w = BitVec.ofNat 32 w := by rw [tableWord, Nat.mod_eq_of_lt hw]
    exact hword ▸ rfl

/-! ### INIT and PUSH -/

/-- Settles O9: acceptance, the key check, and `openMessage` on the cleared state. -/
theorem initOpensMessage : Obligations.InitOpensMessage := by
  intro s hb he hk
  rw [exec_eq, commandResult_init hb he ((keyLenLegal_iff _).2 hk)]
  rfl

/-- ERR_INFO of INVALID_KEY_LENGTH is the accepted-set mask with KEYLEN below it (R241). -/
theorem errorInfo_invalidKeyLength (kl : BitVec 6) :
    errorInfo (.invalidKeyLength kl) = 0x00070000 ||| kl.setWidth 32 := by
  revert kl
  decide

/-- Settles O10: the key check fails, and no request stands for the cipher to answer. -/
theorem initRefusesBadKeyLength : Obligations.InitRefusesBadKeyLength := by
  intro s hb he h16 h24 h32
  have hk : keyLenLegal s.keyLen = false := by
    rw [← Bool.not_eq_true, keyLenLegal_iff, not_or, not_or]
    exact ⟨h16, h24, h32⟩
  rcases initBody_cases s with ⟨hlegal, -⟩ | ⟨-, hraise⟩
  · exact nomatch hk.symm.trans hlegal
  · refine ⟨_, (exec_init hb he).trans (congrArg _ hraise), ?_, fun r => rfl⟩
    rw [← errorInfo_invalidKeyLength]
    rfl

/-- Settles O11: the reset KEYLEN is no legal length. -/
theorem initAfterResetFails : Obligations.InitAfterResetFails := by
  obtain ⟨t, hexec, ht, -⟩ :=
    initRefusesBadKeyLength State.reset rfl (by decide) (by decide) (by decide) (by decide)
  exact ⟨rfl, rfl, rfl, t, hexec, by rw [ht], by rw [ht], by rw [ht]; rfl⟩

/-- Settles O12: a block that is not the last, and the last one by its class. -/
theorem pushIssuesCipherRequest : Obligations.PushIssuesCipherRequest := by
  intro s hb ha
  rw [exec_push_absorb hb ha]
  rcases pushBody_cases s with ⟨hmore, hissue⟩ | ⟨hlast, hissue⟩
  · exact ⟨fun _ => congrArg _ hissue, fun h => absurd hmore h, fun h => absurd hmore h⟩
  · refine ⟨fun h => absurd h hlast, fun _ hcomplete => ?_, fun _ hinc => ?_⟩
    · rw [hcomplete] at hissue
      exact congrArg _ hissue
    · rw [hinc] at hissue
      exact congrArg _ hissue

/-! ### The cipher agent and reset -/

/-- Settles O16: the response awaited in WAIT_CHAIN, and the index that cannot wrap below a 64-bit NBLK. -/
theorem chainResponseAdvances : Obligations.ChainResponseAdvances := by
  refine fun s k b hq hp => ⟨?_, fun hmore => ?_⟩
  · rw [cipherStep_ok hp, respondOk_eq _ (by simp [hq]), responseResult, hq]
    rfl
  · rw [toNat_add_one hmore.le]
    exact hmore

/-- Without a request every answer of the cipher is refused (R51). -/
theorem cipherStep_not_enabled {s : State} (hp : s.pending = none) (r : CipherAnswer) :
    cipherStep r s = .refused .cipherStepNotEnabled := by
  simp only [cipherStep, hp]

/-- Settles O19: no request, an awaited Ok, and an Err by whether failure is admitted. -/
theorem cipherStepOnlyWhilePending : Obligations.CipherStepOnlyWhilePending := by
  refine ⟨fun s r hp => cipherStep_not_enabled hp r, fun s req hp hb => ⟨_, (cipherStep_ok hp).trans (respondOk_eq _ hb)⟩,
    fun s req c hp => ⟨fun ⟨t, ht⟩ => ?_, fun hf => ⟨_, cipherStep_err hp hf c⟩⟩⟩
  rcases cipherStep_cases ht with ⟨_, _, hok, _⟩ | ⟨_, _, _, _, hf, _⟩
  · cases hok
  · exact hf

/-- Settles O44: reset leaves no request, so nothing is left to answer. -/
theorem resetInputRestoresReset : Obligations.ResetInputRestoresReset :=
  fun _ _ hi => ⟨_, step_cons hi, rfl, cipherStep_not_enabled rfl⟩

end Sys2Proof.Machine

/-! PROOFS. Registers: the words and bytes of the register groups, the fields of CTRL and STATUS, and what a read can tell
(spec 10_state.md R20 to R40; 20_memory.md R75). -/

namespace Sys2Proof.Machine

/-! ### Register groups -/

/-- Settles O29: the four bytes of the written word, and the word's other bytes by `byteAt_putWord_other`. -/
theorem keyWritePlacesBytes : Obligations.KeyWritePlacesBytes := by
  intro j v s
  have hj : 32 * j.val + 32 ≤ 256 := by omega
  refine ⟨putWord s.keyB j.val v, rfl, byteAt_putWord_same _ _ _ 0 (by decide) hj,
    byteAt_putWord_same _ _ _ 1 (by decide) hj, byteAt_putWord_same _ _ _ 2 (by decide) hj,
    byteAt_putWord_same _ _ _ 3 (by decide) hj, fun i hi hij => ?_, rfl⟩
  exact byteAt_putWord_other _ _ _ _ hij hj (by omega) rfl

/-- Settles O30: a block is its words, and a written word is read back at its own index only. -/
theorem blockRegistersAreBigEndian : Obligations.BlockRegistersAreBigEndian := by
  refine ⟨fun s => block_eq_words s.dataB, fun s => block_eq_words s.outB, fun j v s =>
    ⟨putWord s.dataB j.val v, rfl, fun i => ?_⟩⟩
  have hread := wordAt_putWord s.dataB i.val j.val v (by omega) (by omega)
  simp only [Fin.val_inj] at hread
  exact hread

/-- Settles O31: the two words of a 64-bit register, and the length after both are written. -/
theorem lengthRegistersAssemble : Obligations.LengthRegistersAssemble := by
  refine ⟨fun s => ⟨highWord_append_lowWord _, highWord_append_lowWord _, highWord_append_lowWord _⟩,
    fun lo hi s => ⟨?_, ?_, rfl, rfl⟩⟩
  · simp only [writeMsgLenHi, writeMsgLenLo, lowWord_append]
  · simp only [writeMsgLenHi, writeMsgLenLo, highWord_append]

/-! ### CTRL and STATUS -/

/-- The flag IE at its place in CTRL, as the spec writes it (R23). -/
theorem getLsbD_flag_shifted (b : Bool) (i : Nat) :
    ((((if b then 1 else 0) <<< 8 : Nat)) : Word).getLsbD i = (decide (i = 8) && b) := by
  cases b with
  | false => simp
  | true =>
    have hpow : (((1 <<< 8 : Nat)) : Word) = BitVec.twoPow 32 8 := rfl
    rw [if_pos rfl, hpow, BitVec.getLsbD_twoPow]
    simp [eq_comm]

/-- Settles O26: CTRL reads back bit by bit what its write stored. -/
theorem ctrlStoresAndReadsBack : Obligations.CtrlStoresAndReadsBack := by
  refine fun v s => ⟨rfl, BitVec.eq_of_getLsbD_eq fun i hi => (getLsbD_ctrlWord s i).trans ?_⟩
  rw [BitVec.getLsbD_or, getLsbD_flag_shifted, BitVec.getLsbD_setWidth, decide_eq_true hi, Bool.true_and]
  by_cases hlen : i < 6
  · simp [-BitVec.getLsbD_eq_getElem, hlen, show i ≠ 8 by omega]
  · rw [if_neg hlen, BitVec.getLsbD_of_ge s.keyLen i (by omega), Bool.or_false]

/-- The PHASE field of STATUS (R26). -/
theorem statusWord_phase (s : State) : (statusWord s).extractLsb' 1 2 = phaseCode s.phase := by
  refine BitVec.eq_of_getLsbD_eq fun i hi => ?_
  rw [BitVec.getLsbD_extractLsb', getLsbD_statusWord, if_neg (by omega), if_pos (by omega), Nat.add_sub_cancel_left]
  simp only [hi, decide_true, Bool.true_and]

/-- The ERR_CODE field of STATUS (R31). -/
theorem statusWord_errCode (s : State) : (statusWord s).extractLsb' 8 4 = errCodeBits s.errCode := by
  refine BitVec.eq_of_getLsbD_eq fun i hi => ?_
  rw [BitVec.getLsbD_extractLsb', getLsbD_statusWord]
  repeat rw [if_neg (by omega)]
  simp only [hi, decide_true, Bool.true_and, Nat.add_sub_cancel_left]

/-- Settles O23: the one-bit fields by `getLsbD_statusWord`, PHASE and ERR_CODE by their encodings. -/
theorem statusReadsFields : Obligations.StatusReadsFields := by
  intro s
  obtain ⟨h7, htop⟩ := statusWord_reserved s
  refine ⟨?_, (statusWord_phase s).trans ?_, getLsbD_statusWord s 3, getLsbD_statusWord s 4, getLsbD_statusWord s 5,
    getLsbD_statusWord s 6, h7, (statusWord_errCode s).trans ?_, htop⟩
  · rw [show (readReg .status s).getLsbD 0 = busy s from getLsbD_statusWord s 0]
    simp [busy]
  · cases s.phase <;> rfl
  · cases s.errCode <;> rfl

/-! ### Reads -/

/-- Settles O54: every register reads a field the host's view holds, or a constant. -/
theorem readsRevealNoSecrets : Obligations.ReadsRevealNoSecrets := by
  intro off s s' h
  simp only [hostView, HostView.mk.injEq] at h
  obtain ⟨hkeyLen, hie, hmsgLen, hdataB, hbusy, hphase, hlast, hvalid, hdrop, hip, hcode, hinfo, hnblk, hblkIdx, hout⟩ := h
  unfold readWindow
  cases regAt off with
  | none => rfl
  | some r =>
    cases r with
    | id | cmd | key => rfl
    | ctrl => simp only [readReg, ctrlWord, hkeyLen, hie]
    | status => simp only [readReg, statusWord, hbusy, hphase, hlast, hvalid, hdrop, hip, hcode]
    | errInfo => exact hinfo
    | msgLenLo | msgLenHi => simp only [readReg, hmsgLen]
    | nblkLo | nblkHi => simp only [readReg, hnblk]
    | blkIdxLo | blkIdxHi => simp only [readReg, hblkIdx]
    | data => simp only [readReg, hdataB]
    | out => simp only [readReg, hout]

end Sys2Proof.Machine

/-! PROOFS. The bus: accesses outside the window, bad accesses, and accesses that reach a register (spec 20_memory.md R70 to
R73), then the request half of the cipher port (10_state.md R50). -/

namespace Sys2Proof.Machine

/-! ### Addresses -/

/-- An address below the window or past its end is not in it (R70). -/
theorem inWindow_eq_false {base addr : Nat} (h : addr < base ∨ base + 0x80 ≤ addr) : inWindow base addr = false := by
  refine decide_eq_false ?_
  unfold Config.windowBytes
  omega

/-- An address from the base up to the window's end is in it (R70). -/
theorem inWindow_eq_true {base addr : Nat} (hlo : base ≤ addr) (hhi : addr < base + 0x80) : inWindow base addr = true :=
  decide_eq_true ⟨hlo, hhi⟩

/-- Settles O34: every kind of access is first checked against the window. -/
theorem outsideAccessLeavesCore : Obligations.OutsideAccessLeavesCore := by
  intro s a addr hout ha
  have hw : inWindow s.base addr = false := inWindow_eq_false hout
  rcases ha with rfl | ⟨v, rfl⟩ | ⟨wd, rfl⟩ | ⟨wd, rfl⟩ <;> simp [busStep, hw, respondBus]

/-- Settles O33: in the window, alignment and then width decide. -/
theorem badAccessGetsBusError : Obligations.BadAccessGetsBusError := by
  intro s addr hlo hhi
  have hw : inWindow s.base addr = true := inWindow_eq_true hlo hhi
  refine ⟨fun hmis => ?_, fun wd => ?_⟩
  · have ha : aligned (offsetOf s.base addr) = false := by simpa [aligned, offsetOf] using hmis
    exact ⟨by simp [busStep, hw, ha, respondBus], fun v => by simp [busStep, hw, ha, respondBus]⟩
  · exact ⟨by simp [busStep, hw, respondBus], by simp [busStep, hw, respondBus]⟩

/-- An aligned read in the window answers the register there (R71, R77). -/
theorem busStep_read_window {addr : Nat} {s : State} (hlo : s.base ≤ addr) (hhi : addr < s.base + 0x80)
    (hal : (addr - s.base) % 4 = 0) :
    busStep (.read addr) s = .next { s with resp := .readData (readWindow (addr - s.base) s) } := by
  have hw : inWindow s.base addr = true := inWindow_eq_true hlo hhi
  have ha : aligned (offsetOf s.base addr) = true := by simpa [aligned, offsetOf] using hal
  simp only [busStep, hw, ha, Bool.not_true, Bool.false_eq_true, if_false]
  rfl

/-- A read changes the host's response only, and answers the register at an aligned offset of the window (R79). -/
theorem busStep_read (addr : Nat) (s : State) : ∃ q, busStep (.read addr) s = .next { s with resp := q } ∧
    (s.base ≤ addr → addr < s.base + 0x80 → (addr - s.base) % 4 = 0 → q = .readData (readWindow (addr - s.base) s)) := by
  by_cases hin : s.base ≤ addr ∧ addr < s.base + 0x80
  · obtain ⟨hlo, hhi⟩ := hin
    by_cases hal : (addr - s.base) % 4 = 0
    · exact ⟨_, busStep_read_window hlo hhi hal, fun _ _ _ => rfl⟩
    · exact ⟨_, ((badAccessGetsBusError s addr hlo hhi).1 hal).1, fun _ _ h => absurd h hal⟩
  · exact ⟨_, outsideAccessLeavesCore s _ addr (by omega) (.inl rfl), fun hlo hhi => absurd ⟨hlo, hhi⟩ hin⟩

/-- The table's offsets are the registers' (R20). -/
theorem windowTable_offset {off : Nat} {r : Reg} (h : (off, r) ∈ windowTable) : off = regOffset r := by
  have hall : ∀ p ∈ windowTable, p.1 = regOffset p.2 := by decide
  exact hall _ h

/-- Settles O32: what a read can do, and the table's offsets as those of the registers. -/
theorem accessReachesRegisterAtOffset : Obligations.AccessReachesRegisterAtOffset := by
  refine ⟨fun s addr rest hi => ?_, fun s off r hmem => ?_, fun s => ⟨rfl, rfl, fun j => rfl⟩⟩
  · obtain ⟨q, hread, hq⟩ := busStep_read addr { s with inputs := rest }
    refine ⟨q, (step_cons hi).trans hread, fun hlo hhi hal => ?_⟩
    rw [hq hlo hhi hal, readsRevealNoSecrets (addr - s.base) { s with inputs := rest } s rfl]
  · obtain rfl := windowTable_offset hmem
    exact ⟨by simp only [readWindow, regAt_regOffset], busStep_read_reg r s, fun v => busStep_write_reg r v s⟩

/-! ### The cipher port -/

/-- Settles O59: the port is the pending request, whose key is the message's while the invariant holds. -/
theorem cipherPortShowsRequest : Obligations.CipherPortShowsRequest := by
  refine ⟨fun s => Option.map_eq_none_iff, fun s req hinv hp => ?_, fun s req hp hk => ?_⟩
  · rw [hinv.requestKey req hp]
    exact hinv.absorbKey (hinv.absorb_of_busy (hinv.busy_of_pending hp))
  · refine ⟨⟨BitVec.ofNat 6 req.key.length, portKey req.key, req.block⟩, by rw [cipherPort, hp]; rfl, ?_, rfl,
      fun j hj => ?_⟩
    · rw [BitVec.toNat_ofNat, Nat.mod_eq_of_lt (by omega)]
    · refine (byteAt_keyStoreOfBytes req.key j hj).trans ?_
      split
      case isTrue h => rw [List.getElem?_eq_getElem h, Option.getD_some]
      case isFalse h => rw [List.getElem?_eq_none (by omega), Option.getD_none]

end Sys2Proof.Machine

/-! PROOFS. Doubling as a bijection, and doubling twice (spec 40_subkey_generator.md R115, R116). -/

namespace Sys2Proof.Machine

/-- Halving undoes doubling: the top bit comes back from bit 0, and Rb is added twice. -/
theorem half_dbl (b : Block) : half (dbl b) = b := by
  refine BitVec.eq_of_getLsbD_eq fun i hi => ?_
  have hzero : (dbl b).getLsbD 0 = b.getLsbD 127 := by simp [getLsbD_dbl, getLsbD_rb, -BitVec.getLsbD_eq_getElem]
  rw [getLsbD_half _ _ hi, hzero]
  split
  case isTrue htop => rw [htop]
  case isFalse htop =>
    rw [getLsbD_dbl _ _ (by omega), Nat.add_sub_cancel, decide_eq_true (Nat.le_add_left 1 i), Bool.true_and, Bool.xor_assoc,
      Bool.xor_self, Bool.xor_false]

/-- Doubling undoes halving: bit 0 comes back from the top bit, and Rb is added twice. -/
theorem dbl_half (d : Block) : dbl (half d) = d := by
  refine BitVec.eq_of_getLsbD_eq fun i hi => ?_
  have htop : (half d).getLsbD 127 = d.getLsbD 0 := getLsbD_half d 127 (by decide)
  rw [getLsbD_dbl _ _ hi, htop]
  by_cases hzero : i = 0
  · simp [hzero, getLsbD_rb, -BitVec.getLsbD_eq_getElem]
  · rw [getLsbD_half _ _ (by omega), if_neg (by omega), Nat.sub_add_cancel (by omega), decide_eq_true (by omega),
      Bool.true_and, Bool.xor_assoc, Bool.xor_self, Bool.xor_false]

/-- Settles O37: `half` is an inverse on both sides. -/
theorem dblIsBijection : Obligations.DblIsBijection :=
  ⟨fun _ => rfl, half_dbl, dbl_half, Function.LeftInverse.injective half_dbl, Function.RightInverse.surjective dbl_half⟩

/-- Doubling as a shift and a conditional sum (R110). -/
theorem dbl_eq_xor (b : Block) : dbl b = (b <<< 1) ^^^ (if b.getLsbD 127 then rb else 0) := by
  unfold dbl
  split
  · rfl
  · exact BitVec.xor_zero.symm

/-- Settles O38: the two conditional sums of doubling twice, the first of them shifted. -/
theorem secondSubkeyClosedForm : Obligations.SecondSubkeyClosedForm := by
  intro l
  have htop : (dbl l).getLsbD 127 = l.getLsbD 126 := by simp [getLsbD_dbl, getLsbD_rb, -BitVec.getLsbD_eq_getElem]
  have hshift : (if l.getLsbD 127 then rb else 0) <<< 1 = if l.getLsbD 127 then (0x10E : Block) else 0 := by
    split <;> decide
  have htwice : l <<< 1 <<< 1 = l <<< 2 := (BitVec.shiftLeft_add l 1 1).symm
  calc (subkeys l).2 = (dbl l <<< 1) ^^^ (if (dbl l).getLsbD 127 then rb else 0) := dbl_eq_xor (dbl l)
    _ = ((l <<< 1) ^^^ (if l.getLsbD 127 then rb else 0)) <<< 1 ^^^ (if l.getLsbD 126 then rb else 0) := by
      rw [htop, dbl_eq_xor l]
    _ = _ := by
      rw [BitVec.shiftLeft_xor_distrib, hshift, htwice]
      rfl

end Sys2Proof.Machine
